-- ==== Sys2Proof/Word.lean ====
section
/-! DEFINITION. The word types: the 32-bit command word (R80), the byte of BUF and TXT (R7, R28, R29), and the
module, the one-bit unit of the output stream (R11). -/

namespace Sys2Proof

/-- A command word or a response value: 32 bits, bit 0 the least significant (R7, R80, R90). -/
abbrev Word := BitVec 32

/-- One byte of BUF or of TXT (R7, R28, R29). -/
abbrev Byte := BitVec 8

/-- A module is one of two values: `false` is 0, dark, a bar; `true` is 1, light, a space (R11). -/
abbrev Module := Bool

/-- The light module, stored as bit 1 (R11, R52). -/
abbrev light : Module := true

/-- The dark module, stored as bit 0 (R11, R52). -/
abbrev dark : Module := false

end Sys2Proof
end

