-- ==== Sys2Proof/Config.lean ====
section
/-! DEFINITION. The implementation parameters of R6, each with the value the spec takes. None is state (R35). -/

namespace Sys2Proof

/-- Which bit of a BUF byte holds the first of its eight modules (R6 `BIT_ORDER`, R51). -/
inductive BitOrder where
  | msbFirst
  | lsbFirst
deriving DecidableEq, Repr

/-- `BIT_ORDER`: the spec picks `MSB_FIRST` (R51, decision D8). Every procedure takes the order as an argument, so
that the `LSB_FIRST` block comes from the same rules; the meanings of the commands pass this value. -/
def Config.bitOrder : BitOrder := .msbFirst

/-- `NSYMBOLS` (R6). -/
abbrev Config.nSymbols : Nat := 107

/-- `MODULUS`, the checksum modulus (R6). -/
abbrev Config.modulus : Nat := 103

/-- `W_SYM`, modules of symbols 0 to 105 (R6). -/
abbrev Config.wSym : Nat := 11

/-- `W_STOP`, modules of symbol 106 (R6). -/
abbrev Config.wStop : Nat := 13

/-- `CTL_HI`, the top of the control range that requires Code A (R6, R155). -/
abbrev Config.ctlHi : Nat := 0x1F

/-- `B_REQ_LO`, the bottom of the range that requires Code B, the source's unaudited literal (R6, R155, D27). -/
abbrev Config.bReqLo : Nat := 0x27

/-- `CAP_W`, the width of the capacity in bits (R6, R26). -/
abbrev Config.capW : Nat := 24

/-- `CURSOR_W` (R6, R25). -/
abbrev Config.cursorW : Nat := 32

/-- `NSYM_W` (R6, R23). -/
abbrev Config.nsymW : Nat := 32

/-- `LEN_W`, the width of the text length (R6). -/
abbrev Config.lenW : Nat := 16

/-- `QZ_W`, the width of the quiet-zone operand of ENCODE (R6). -/
abbrev Config.qzW : Nat := 8

/-- `PAT_W`, the width of the pattern operand of WRMOD, and its largest module count (R6, R131). -/
abbrev Config.patW : Nat := 16

/-- How many byte offsets BUF can have: the largest capacity INIT can declare (R6 `CAP_W`, R26, R60). -/
abbrev Config.bufBytes : Nat := 2 ^ Config.capW - 1

/-- How many byte offsets TXT can have: the largest text length (R6 `LEN_W`, R29, R60). -/
abbrev Config.txtBytes : Nat := 2 ^ Config.lenW - 1

end Sys2Proof
end

