-- ==== Sys2Proof/Syntax.lean ====
section
/-! DEFINITION. The command set: the code sets, the selectors, and `Instr`, one constructor per row of
spec/opcode_table.json (R82), with the operand fields of R81 and R84 as its arguments. -/

namespace Sys2Proof

/-- The five values of the code set, the encoder's interpretation mode (R21). NONE is the pre-start state, STOP is
terminal. Also the target operand of CHCODE (R84 `TGT`). -/
inductive CodeSet where
  | none
  | a
  | b
  | c
  | stop
deriving DecidableEq, Repr

/-- The fixed code set operand of APPEND and ENCODE (R84 `FIX`). -/
inductive Fix where
  | auto
  | a
  | b
  | c
deriving DecidableEq, Repr

/-- The register selector of RDREG (R31, R84 `REG`). -/
inductive RegSel where
  | cursor
  | status
  | nsym
  | cap
deriving DecidableEq, Repr

/-- The ten commands (R82). The text of APPEND and ENCODE is the first `len` bytes of TXT (R85). -/
inductive Instr where
  /-- `INIT cap` (R191). -/
  | init (cap : BitVec 24)
  /-- `WRMOD pat, width` (R134). -/
  | wrmod (pat : BitVec 16) (width : BitVec 5)
  /-- `QUIET n` (R135). -/
  | quiet (n : BitVec 16)
  /-- `CHCODE tgt` (R153). -/
  | chcode (tgt : CodeSet)
  /-- `APSYM sym` (R151). -/
  | apsym (sym : BitVec 7)
  /-- `APPEND fix, text of len bytes` (R159). -/
  | append (fix : Fix) (len : BitVec 16)
  /-- `FINAL` (R161). -/
  | final
  /-- `ENCODE fix, qz, text of len bytes` (R192). -/
  | encode (fix : Fix) (qz : BitVec 8) (len : BitVec 16)
  /-- `RDREG reg` (R193). -/
  | rdreg (reg : RegSel)
  /-- `RDMOD idx` (R137). -/
  | rdmod (idx : BitVec 28)
deriving DecidableEq, Repr

end Sys2Proof
end

