-- ==== Sys2Proof/WellFormed.lean ====
section
/-! DEFINITION. Which terms of `Instr` are commands: the operand ranges of R84 that the operand types leave open. -/

namespace Sys2Proof

/-- `WIDTH` is 0 to 16; 17 to 31 are illegal (R84, R97). -/
def widthLegal (width : BitVec 5) : Bool := decide (width.toNat ≤ Config.patW)

/-- `SYM` is 0 to 106; 107 to 127 are illegal (R84, R97). -/
def symLegal (sym : BitVec 7) : Bool := decide (sym.toNat < Config.nSymbols)

/-- The operand ranges of R84. `TGT`, `FIX` and `REG` are in range by their types; `CAP`, `PAT`, `N`, `LEN`, `QZ` and
`IDX` take every value of their fields. -/
def Instr.wf : Instr → Bool
  | .init _ => true
  | .wrmod _ width => widthLegal width
  | .quiet _ => true
  | .chcode _ => true
  | .apsym sym => symLegal sym
  | .append _ _ => true
  | .final => true
  | .encode _ _ _ => true
  | .rdreg _ => true
  | .rdmod _ => true

end Sys2Proof
end

