-- ==== Sys2Proof/Decode.lean ====
section
/-! DEFINITION. Decoding of the 32-bit command word (R80 to R84, R91, R97), total on all words and rejecting by name;
after it the encoder, from the formulas of R101, and the match and mask table of R83. -/

namespace Sys2Proof

/-- Why a word is not a command (R97). -/
inductive DecodeError where
  /-- `OPC` is 0x0 or 0xB to 0xF. -/
  | reservedOpcode
  /-- A reserved bit of the word's format is 1. -/
  | reservedBit
  /-- `WIDTH > 16`. -/
  | widthRange
  /-- `TGT > 4`. -/
  | targetRange
  /-- `SYM > 106`. -/
  | symbolRange
  /-- `FIX > 3`. -/
  | fixRange
  /-- `REG > 3`. -/
  | registerRange
deriving DecidableEq, Repr

/-- The field of `len` bits of `w` whose lowest bit is `lo`: `w[lo+len-1 : lo]` (R7). -/
def field (w : Word) (lo len : Nat) : BitVec len := w.extractLsb' lo len

/-- `OPC = w[31:28]` (R80). -/
def opc (w : Word) : BitVec 4 := field w 28 4

/-- Whether the reserved bits `w[lo+len-1 : lo]` are all 0 (R80). -/
def reservedClear (w : Word) (lo len : Nat) : Bool := decide (field w lo len = 0#len)

/-- The numbers of the code sets (R21, R84 `TGT`). -/
def CodeSet.number : CodeSet → Nat
  | .none => 0
  | .a => 1
  | .b => 2
  | .c => 3
  | .stop => 4

/-- The code set of a `TGT` field; 5 to 7 are illegal (R84). -/
def CodeSet.ofField (v : BitVec 3) : Except DecodeError CodeSet :=
  if v.toNat = 0 then .ok .none
  else if v.toNat = 1 then .ok .a
  else if v.toNat = 2 then .ok .b
  else if v.toNat = 3 then .ok .c
  else if v.toNat = 4 then .ok .stop
  else .error .targetRange

/-- The numbers of the fixed code sets (R84 `FIX`). -/
def Fix.number : Fix → Nat
  | .auto => 0
  | .a => 1
  | .b => 2
  | .c => 3

/-- The fixed code set of a `FIX` field; 4 to 7 are illegal (R84). -/
def Fix.ofField (v : BitVec 3) : Except DecodeError Fix :=
  if v.toNat = 0 then .ok .auto
  else if v.toNat = 1 then .ok .a
  else if v.toNat = 2 then .ok .b
  else if v.toNat = 3 then .ok .c
  else .error .fixRange

/-- The register numbers of RDREG (R31). -/
def RegSel.number : RegSel → Nat
  | .cursor => 0
  | .status => 1
  | .nsym => 2
  | .cap => 3

/-- The register of a `REG` field; 4 to 7 are illegal (R31, R84). -/
def RegSel.ofField (v : BitVec 3) : Except DecodeError RegSel :=
  if v.toNat = 0 then .ok .cursor
  else if v.toNat = 1 then .ok .status
  else if v.toNat = 2 then .ok .nsym
  else if v.toNat = 3 then .ok .cap
  else .error .registerRange

/-- Format I (R81). -/
def decodeInit (w : Word) : Except DecodeError Instr :=
  if reservedClear w 24 4 then .ok (.init (field w 0 24)) else .error .reservedBit

/-- Format W (R81); `WIDTH <= 16` (R83). -/
def decodeWrmod (w : Word) : Except DecodeError Instr :=
  if reservedClear w 21 7 then
    if widthLegal (field w 16 5) then .ok (.wrmod (field w 0 16) (field w 16 5)) else .error .widthRange
  else .error .reservedBit

/-- Format Q (R81). -/
def decodeQuiet (w : Word) : Except DecodeError Instr :=
  if reservedClear w 16 12 then .ok (.quiet (field w 0 16)) else .error .reservedBit

/-- Format C (R81); `TGT <= 4` (R83). -/
def decodeChcode (w : Word) : Except DecodeError Instr :=
  if reservedClear w 3 25 then (CodeSet.ofField (field w 0 3)).map .chcode else .error .reservedBit

/-- Format S (R81); `SYM <= 106` (R83). -/
def decodeApsym (w : Word) : Except DecodeError Instr :=
  if reservedClear w 7 21 then
    if symLegal (field w 0 7) then .ok (.apsym (field w 0 7)) else .error .symbolRange
  else .error .reservedBit

/-- Format T (R81); `FIX <= 3` (R83). -/
def decodeAppend (w : Word) : Except DecodeError Instr :=
  if reservedClear w 27 1 && reservedClear w 16 8 then
    (Fix.ofField (field w 24 3)).map (fun fix => .append fix (field w 0 16))
  else .error .reservedBit

/-- Format N (R81). -/
def decodeFinal (w : Word) : Except DecodeError Instr :=
  if reservedClear w 0 28 then .ok .final else .error .reservedBit

/-- Format E (R81); `FIX <= 3` (R83). -/
def decodeEncode (w : Word) : Except DecodeError Instr :=
  if reservedClear w 27 1 then
    (Fix.ofField (field w 24 3)).map (fun fix => .encode fix (field w 16 8) (field w 0 16))
  else .error .reservedBit

/-- Format R (R81); `REG <= 3` (R83). -/
def decodeRdreg (w : Word) : Except DecodeError Instr :=
  if reservedClear w 3 25 then (RegSel.ofField (field w 0 3)).map .rdreg else .error .reservedBit

/-- Format M (R81): every word with this opcode is legal. -/
def decodeRdmod (w : Word) : Except DecodeError Instr := .ok (.rdmod (field w 0 28))

/-- The decode procedure, total on all words (R82, R91, R97). -/
def decode (w : Word) : Except DecodeError Instr :=
  if opc w = 0x1#4 then decodeInit w
  else if opc w = 0x2#4 then decodeWrmod w
  else if opc w = 0x3#4 then decodeQuiet w
  else if opc w = 0x4#4 then decodeChcode w
  else if opc w = 0x5#4 then decodeApsym w
  else if opc w = 0x6#4 then decodeAppend w
  else if opc w = 0x7#4 then decodeFinal w
  else if opc w = 0x8#4 then decodeEncode w
  else if opc w = 0x9#4 then decodeRdreg w
  else if opc w = 0xA#4 then decodeRdmod w
  else .error .reservedOpcode

/-- The command word of a command, by the formulas of R101. -/
def encode : Instr → Word
  | .init cap => BitVec.ofNat 32 (0x10000000 + cap.toNat)
  | .wrmod pat width => BitVec.ofNat 32 (0x20000000 + width.toNat * 0x10000 + pat.toNat)
  | .quiet n => BitVec.ofNat 32 (0x30000000 + n.toNat)
  | .chcode tgt => BitVec.ofNat 32 (0x40000000 + tgt.number)
  | .apsym sym => BitVec.ofNat 32 (0x50000000 + sym.toNat)
  | .append fix len => BitVec.ofNat 32 (0x60000000 + fix.number * 0x1000000 + len.toNat)
  | .final => BitVec.ofNat 32 0x70000000
  | .encode fix qz len =>
    BitVec.ofNat 32 (0x80000000 + fix.number * 0x1000000 + qz.toNat * 0x10000 + len.toNat)
  | .rdreg reg => BitVec.ofNat 32 (0x90000000 + reg.number)
  | .rdmod idx => BitVec.ofNat 32 (0xA0000000 + idx.toNat)

/-- One row of the match and mask table of R83: a word is the named command iff `w & mask = pattern` and the field
check holds. -/
structure Row where
  pattern : Word
  mask : Word
  check : Word → Bool

/-- The row of a command (R83). The field checks are `WIDTH <= 16`, `TGT <= 4`, `SYM <= 106`, `FIX <= 3`,
`REG <= 3`. -/
def rowOf : Instr → Row
  | .init _ => ⟨0x10000000#32, 0xFF000000#32, fun _ => true⟩
  | .wrmod _ _ => ⟨0x20000000#32, 0xFFE00000#32, fun w => decide ((field w 16 5).toNat ≤ 16)⟩
  | .quiet _ => ⟨0x30000000#32, 0xFFFF0000#32, fun _ => true⟩
  | .chcode _ => ⟨0x40000000#32, 0xFFFFFFF8#32, fun w => decide ((field w 0 3).toNat ≤ 4)⟩
  | .apsym _ => ⟨0x50000000#32, 0xFFFFFF80#32, fun w => decide ((field w 0 7).toNat ≤ 106)⟩
  | .append _ _ => ⟨0x60000000#32, 0xF8FF0000#32, fun w => decide ((field w 24 3).toNat ≤ 3)⟩
  | .final => ⟨0x70000000#32, 0xFFFFFFFF#32, fun _ => true⟩
  | .encode _ _ _ => ⟨0x80000000#32, 0xF8000000#32, fun w => decide ((field w 24 3).toNat ≤ 3)⟩
  | .rdreg _ => ⟨0x90000000#32, 0xFFFFFFF8#32, fun w => decide ((field w 0 3).toNat ≤ 3)⟩
  | .rdmod _ => ⟨0xA0000000#32, 0xF0000000#32, fun _ => true⟩

/-- A word matches a row when `w & mask = pattern` and the row's field check holds (R83). -/
def Row.accepts (r : Row) (w : Word) : Prop := w &&& r.mask = r.pattern ∧ r.check w = true

/-- The command word whose low `nbits` bits are those of `w` and whose other bits are 0. A command is one 32-bit word
handed over whole (R53, R80). -/
def tableWord (nbits w : Nat) : Word := BitVec.ofNat 32 (w % 2 ^ nbits)

/-- The instruction the decoder reads from a word numbered as spec/opcode_table.json numbers it. -/
def decodeTableWord (nbits w : Nat) : Option Instr :=
  match decode (tableWord nbits w) with
  | .ok i => some i
  | .error _ => none

end Sys2Proof
end

