-- ==== Sys2Proof/Machine/State.lean ====
section
/-! DEFINITION. The machine's state (R20 to R37): the six registers, the transient TXTPOS, the spaces BUF and TXT, the
response of the last command (R90) and the host's pending moves (R4); the reasons a step can stop; the state after
hardware reset (R34, R240). SYMROM is a constant (R35) and stands in Machine/SymRom.lean. -/

namespace Sys2Proof.Machine

/-- The contents of a byte space, as (offset, byte) pairs in the canonical form of `Memory.wf`. -/
abbrev Memory := List Host.Cell

/-- The response codes (R90). -/
inductive RespCode where
  | ok
  | illegal
  | range
deriving DecidableEq, Repr

/-- The response of a command: a code and a 32-bit value (R90). -/
structure Response where
  code : RespCode
  val : Word
deriving DecidableEq, Repr

/-- One move of the host between commands (R4): issue a command word; place bytes in TXT or in BUF from an offset on
(R28, R29, R242); or reset the hardware, which is taken between commands (R240). -/
inductive HostMove where
  | command (w : Word)
  | placeText (off : Nat) (bytes : List Byte)
  | placeBuf (off : Nat) (bytes : List Byte)
  | hardReset
deriving DecidableEq, Repr

/-- The complete state of one block instance and its host interface. The registers are naturals (R8), the widths of R6
being the invariant `State.Inv`; `chk` is bounded by its type (R22). -/
structure State where
  /-- `CODE` (R21). -/
  code : CodeSet
  /-- `CHK`, 0 to 102 (R22). -/
  chk : Fin 103
  /-- `NSYM` (R23). -/
  nsym : Nat
  /-- `ERR` (R24). -/
  err : Bool
  /-- `CURSOR`, in modules (R25). -/
  cursor : Nat
  /-- `CAP`, in bytes (R26). -/
  cap : Nat
  /-- `TXTPOS`: it exists only inside an APPEND or ENCODE; `none` is the spec's "no value between commands" (R27). -/
  txtpos : Option Nat
  /-- `BUF` (R28): the host's whole byte space; the block reaches offsets below `cap` only (R54). -/
  buf : Memory
  /-- `TXT` (R29). -/
  txt : Memory
  /-- The response of the last command (R90); `none` until a first command has returned. -/
  response : Option Response
  /-- The host's moves still to come, the next one first (R4, R5). -/
  agenda : List HostMove
deriving DecidableEq, Repr

/-- Why the machine stops. No command of the block faults (R210); only a host move can. -/
inductive Fault where
  /-- The host places a byte at a BUF offset that no capacity can declare. Raised by `placeBuf`; safe: the offset does
  not exist under any CAP (R26, R60), so no behaviour of the block is lost. -/
  | bufOffset
  /-- The host places a byte at a TXT offset that no length can reach. Raised by `placeText`; safe: the offset does
  not exist under any LEN (R29, R60), so no behaviour of the block is lost. -/
  | txtOffset
deriving DecidableEq, Repr

/-- Why an instruction has no meaning in the model. -/
inductive Refusal where
  /-- The instruction has no meaning yet. Raised by a refused arm of `exec` only; safe: nothing runs. -/
  | notModelled (mnemonic : String)
deriving DecidableEq, Repr

/-- The machine right after hardware reset (R34, R240): every register 0, CAP 0, TXTPOS without a value; nothing placed
in BUF or TXT; no response given; no host move pending. -/
def State.reset : State where
  code := .none
  chk := 0
  nsym := 0
  err := false
  cursor := 0
  cap := 0
  txtpos := none
  buf := []
  txt := []
  response := none
  agenda := []

end Sys2Proof.Machine
end

