-- ==== Sys2Proof/Machine/SymRom.lean ====
section
/-! DEFINITION. SYMROM, the read-only Symbol Table of 107 entries (R30, R110 to R114): the width strings of R112 as the
primary data, and the pattern word and width that follow from them by R113. -/

namespace Sys2Proof.Machine

/-- The width strings of symbols 0 to 9 (R112). -/
def symRows0 : List (List Nat) := [
  [2, 1, 2, 2, 2, 2],
  [2, 2, 2, 1, 2, 2],
  [2, 2, 2, 2, 2, 1],
  [1, 2, 1, 2, 2, 3],
  [1, 2, 1, 3, 2, 2],
  [1, 3, 1, 2, 2, 2],
  [1, 2, 2, 2, 1, 3],
  [1, 2, 2, 3, 1, 2],
  [1, 3, 2, 2, 1, 2],
  [2, 2, 1, 2, 1, 3]]

/-- The width strings of symbols 10 to 19 (R112). -/
def symRows10 : List (List Nat) := [
  [2, 2, 1, 3, 1, 2],
  [2, 3, 1, 2, 1, 2],
  [1, 1, 2, 2, 3, 2],
  [1, 2, 2, 1, 3, 2],
  [1, 2, 2, 2, 3, 1],
  [1, 1, 3, 2, 2, 2],
  [1, 2, 3, 1, 2, 2],
  [1, 2, 3, 2, 2, 1],
  [2, 2, 3, 2, 1, 1],
  [2, 2, 1, 1, 3, 2]]

/-- The width strings of symbols 20 to 29 (R112). -/
def symRows20 : List (List Nat) := [
  [2, 2, 1, 2, 3, 1],
  [2, 1, 3, 2, 1, 2],
  [2, 2, 3, 1, 1, 2],
  [3, 1, 2, 1, 3, 1],
  [3, 1, 1, 2, 2, 2],
  [3, 2, 1, 1, 2, 2],
  [3, 2, 1, 2, 2, 1],
  [3, 1, 2, 2, 1, 2],
  [3, 2, 2, 1, 1, 2],
  [3, 2, 2, 2, 1, 1]]

/-- The width strings of symbols 30 to 39 (R112). -/
def symRows30 : List (List Nat) := [
  [2, 1, 2, 1, 2, 3],
  [2, 1, 2, 3, 2, 1],
  [2, 3, 2, 1, 2, 1],
  [1, 1, 1, 3, 2, 3],
  [1, 3, 1, 1, 2, 3],
  [1, 3, 1, 3, 2, 1],
  [1, 1, 2, 3, 1, 3],
  [1, 3, 2, 1, 1, 3],
  [1, 3, 2, 3, 1, 1],
  [2, 1, 1, 3, 1, 3]]

/-- The width strings of symbols 40 to 49 (R112). -/
def symRows40 : List (List Nat) := [
  [2, 3, 1, 1, 1, 3],
  [2, 3, 1, 3, 1, 1],
  [1, 1, 2, 1, 3, 3],
  [1, 1, 2, 3, 3, 1],
  [1, 3, 2, 1, 3, 1],
  [1, 1, 3, 1, 2, 3],
  [1, 1, 3, 3, 2, 1],
  [1, 3, 3, 1, 2, 1],
  [3, 1, 3, 1, 2, 1],
  [2, 1, 1, 3, 3, 1]]

/-- The width strings of symbols 50 to 59 (R112). -/
def symRows50 : List (List Nat) := [
  [2, 3, 1, 1, 3, 1],
  [2, 1, 3, 1, 1, 3],
  [2, 1, 3, 3, 1, 1],
  [2, 1, 3, 1, 3, 1],
  [3, 1, 1, 1, 2, 3],
  [3, 1, 1, 3, 2, 1],
  [3, 3, 1, 1, 2, 1],
  [3, 1, 2, 1, 1, 3],
  [3, 1, 2, 3, 1, 1],
  [3, 3, 2, 1, 1, 1]]

/-- The width strings of symbols 60 to 69 (R112). -/
def symRows60 : List (List Nat) := [
  [3, 1, 4, 1, 1, 1],
  [2, 2, 1, 4, 1, 1],
  [4, 3, 1, 1, 1, 1],
  [1, 1, 1, 2, 2, 4],
  [1, 1, 1, 4, 2, 2],
  [1, 2, 1, 1, 2, 4],
  [1, 2, 1, 4, 2, 1],
  [1, 4, 1, 1, 2, 2],
  [1, 4, 1, 2, 2, 1],
  [1, 1, 2, 2, 1, 4]]

/-- The width strings of symbols 70 to 79 (R112). -/
def symRows70 : List (List Nat) := [
  [1, 1, 2, 4, 1, 2],
  [1, 2, 2, 1, 1, 4],
  [1, 2, 2, 4, 1, 1],
  [1, 4, 2, 1, 1, 2],
  [1, 4, 2, 2, 1, 1],
  [2, 4, 1, 2, 1, 1],
  [2, 2, 1, 1, 1, 4],
  [4, 1, 3, 1, 1, 1],
  [2, 4, 1, 1, 1, 2],
  [1, 3, 4, 1, 1, 1]]

/-- The width strings of symbols 80 to 89 (R112). -/
def symRows80 : List (List Nat) := [
  [1, 1, 1, 2, 4, 2],
  [1, 2, 1, 1, 4, 2],
  [1, 2, 1, 2, 4, 1],
  [1, 1, 4, 2, 1, 2],
  [1, 2, 4, 1, 1, 2],
  [1, 2, 4, 2, 1, 1],
  [4, 1, 1, 2, 1, 2],
  [4, 2, 1, 1, 1, 2],
  [4, 2, 1, 2, 1, 1],
  [2, 1, 2, 1, 4, 1]]

/-- The width strings of symbols 90 to 99 (R112). -/
def symRows90 : List (List Nat) := [
  [2, 1, 4, 1, 2, 1],
  [4, 1, 2, 1, 2, 1],
  [1, 1, 1, 1, 4, 3],
  [1, 1, 1, 3, 4, 1],
  [1, 3, 1, 1, 4, 1],
  [1, 1, 4, 1, 1, 3],
  [1, 1, 4, 3, 1, 1],
  [4, 1, 1, 1, 1, 3],
  [4, 1, 1, 3, 1, 1],
  [1, 1, 3, 1, 4, 1]]

/-- The width strings of symbols 100 to 106 (R112). -/
def symRows100 : List (List Nat) := [
  [1, 1, 4, 1, 3, 1],
  [3, 1, 1, 1, 4, 1],
  [4, 1, 1, 1, 3, 1],
  [2, 1, 1, 4, 1, 2],
  [2, 1, 1, 2, 1, 4],
  [2, 1, 1, 2, 3, 2],
  [2, 3, 3, 1, 1, 1, 2]]

/-- The 107 width strings, indexed by symbol code 0 to 106 (R112). -/
def symTable : List (List Nat) :=
  symRows0 ++ symRows10 ++ symRows20 ++ symRows30 ++
  symRows40 ++ symRows50 ++ symRows60 ++ symRows70 ++
  symRows80 ++ symRows90 ++ symRows100

/-- `Expand` of R113: the module sequence of a width string, first module first; `colour` is the module value of the
first width, and the colours alternate. -/
def expandFrom (colour : Module) : List Nat → List Module
  | [] => []
  | e :: es => List.replicate e colour ++ expandFrom (!colour) es

/-- The first width of an entry is a bar (R111, R113). -/
def expand (widths : List Nat) : List Module := expandFrom dark widths

/-- The number whose binary digits, most significant first, are the modules (R113). -/
def modulesToNat (ms : List Module) : Nat := ms.foldl (fun n m => 2 * n + m.toNat) 0

/-- An entry of SYMROM: the pattern word and the module count (R30, R110). -/
structure SymEntry where
  pat : Nat
  width : Nat
deriving DecidableEq, Repr

/-- The width string of symbol `c`. Not called with `c > 106` (R58). -/
def symWidths (c : Nat) : List Nat := symTable.getD c []

/-- The modules of symbol `c`, first module first (R113). -/
def symModules (c : Nat) : List Module := expand (symWidths c)

/-- `MemRead(SYMROM, c, 1) = (pat(c), width(c))` (R58, R110). Not called with `c > 106`. -/
def symRom (c : Nat) : SymEntry := ⟨modulesToNat (symModules c), (symModules c).length⟩

end Sys2Proof.Machine
end

