-- ==== Sys2Proof/Machine/Ops.lean ====
section
/-! DEFINITION. The named operations over the byte spaces, the module stream and the registers: memory read and write,
module addressing (R51, R56), the one exception `flag ERR` (R210, R216), the refusals (R215), run-reset (R190), hardware
reset (R240), the response (R90), and the Bit Sink's procedures (R130, R131, R133, R137). -/

namespace Sys2Proof.Machine

/-! ### The byte spaces -/

/-- What a byte that nothing has placed reads as. DESIGN CHOICE (unsafe, assumption 3): the spec leaves the initial
contents of BUF and TXT to the host (R34, U5). -/
def Memory.unwritten : Byte := 0x00#8

/-- `MemRead(space, a, 1)` (R9). -/
def Memory.read : Memory → Nat → Byte
  | [], _ => Memory.unwritten
  | (k, v) :: m, a => if a = k then v else Memory.read m a

/-- A cell in front of a memory, left out when its byte is the one an unlisted offset reads as. -/
def Memory.put (a : Nat) (v : Byte) (m : Memory) : Memory :=
  if v = Memory.unwritten then m else (a, v) :: m

/-- `MemWrite(space, a, 1, v)` (R9), keeping the canonical form. -/
def Memory.write : Memory → Nat → Byte → Memory
  | [], a, v => Memory.put a v []
  | (k, w) :: m, a, v =>
    if a < k then Memory.put a v ((k, w) :: m)
    else if a = k then Memory.put a v m
    else (k, w) :: Memory.write m a v

/-- Bytes written at consecutive offsets from `off` on. -/
def Memory.writeBytes (m : Memory) (off : Nat) : List Byte → Memory
  | [] => m
  | v :: vs => Memory.writeBytes (m.write off v) (off + 1) vs

/-- Every listed offset is at least `lo`, the offsets rise strictly, and no listed byte is the unlisted one. -/
def Memory.wfFrom (lo : Nat) : Memory → Bool
  | [] => true
  | (k, v) :: m => decide (lo ≤ k) && decide (v ≠ Memory.unwritten) && Memory.wfFrom (k + 1) m

/-- The canonical form. -/
def Memory.wf (m : Memory) : Bool := Memory.wfFrom 0 m

/-! ### Module addressing -/

/-- `bit(i)`: the bit position of module `i` in its byte (R51). -/
def bitPos (o : BitOrder) (i : Nat) : Nat :=
  match o with
  | .msbFirst => 7 - i % 8
  | .lsbFirst => i % 8

/-- `off(i) = i >> 3`: the byte offset of module `i` (R51). -/
def byteOff (i : Nat) : Nat := i / 8

/-- `v` with bit `b` replaced by `m`: `(v & ~(1 << b)) | (m << b)` (R130). -/
def replaceBit (v : Byte) (b : Nat) (m : Module) : Byte :=
  (v &&& ~~~(1#8 <<< b)) ||| (BitVec.ofNat 8 m.toNat <<< b)

/-- The module at index `i` of a buffer: `v[bit(i)]` of byte `off(i)` (R137). -/
def readModule (o : BitOrder) (buf : Memory) (i : Nat) : Module :=
  (buf.read (byteOff i)).getLsbD (bitPos o i)

/-- The read-modify-write of one byte that stores module `m` at index `i` (R56, R130). -/
def writeBit (o : BitOrder) (buf : Memory) (i : Nat) (m : Module) : Memory :=
  buf.write (byteOff i) (replaceBit (buf.read (byteOff i)) (bitPos o i) m)

/-! ### Register writes -/

/-- `flag ERR`: the block's only exception. It writes `ERR <- 1` and nothing else, and the command goes on (R210,
R216). There is no return from it (R218): only run-reset and hardware reset clear `ERR`. -/
def State.flagErr (s : State) : State := { s with err := true }

/-- `RunReset` (R190). -/
def State.runReset (s : State) : State :=
  { s with code := .none, chk := 0, nsym := 0, err := false, cursor := 0 }

/-- Hardware reset of the block (R34, R240): the registers at their reset values; BUF, TXT and the host's pending moves
are the host's and stay; no response is outstanding. -/
def State.hardReset (s : State) : State :=
  { State.reset with buf := s.buf, txt := s.txt, agenda := s.agenda }

/-- `CAP <- v` (R191). -/
def State.setCap (v : Nat) (s : State) : State := { s with cap := v }

/-- `CODE <- t` (R152, R160). -/
def State.setCode (t : CodeSet) (s : State) : State := { s with code := t }

/-- `CHK <- (CHK + max(NSYM, 1) * c) mod 103; NSYM <- NSYM + 1` (R150). -/
def State.countSymbol (c : Nat) (s : State) : State :=
  { s with chk := Fin.ofNat Config.modulus (s.chk.val + max s.nsym 1 * c), nsym := s.nsym + 1 }

/-- The value of `TXTPOS` inside APPEND or ENCODE (R27). -/
def State.pos (s : State) : Nat := s.txtpos.getD 0

/-- `TXTPOS <- p` (R27, R158). -/
def State.setPos (p : Nat) (s : State) : State := { s with txtpos := some p }

/-- The end of `Append`: TXTPOS has no value between commands (R27). -/
def State.clearPos (s : State) : State := { s with txtpos := none }

/-- The contents of BUF replaced. -/
def State.setBuf (m : Memory) (s : State) : State := { s with buf := m }

/-- The contents of TXT replaced. -/
def State.setTxt (m : Memory) (s : State) : State := { s with txt := m }

/-- The host's pending moves replaced. -/
def State.setAgenda (ms : List HostMove) (s : State) : State := { s with agenda := ms }

/-- The encoding of a response code in two bits (R90). -/
def RespCode.number : RespCode → BitVec 2
  | .ok => 0#2
  | .illegal => 1#2
  | .range => 2#2

/-- `respond v` with a response code (R9, R90). -/
def State.respond (code : RespCode) (v : Nat) (s : State) : State :=
  { s with response := some ⟨code, BitVec.ofNat 32 v⟩ }

/-- `refuse ILLEGAL` and `refuse RANGE`: nothing changes but the response, `(code, 0)` (R10, R97, R215). -/
def State.refuse (code : RespCode) (s : State) : State := s.respond code 0

/-! ### The Bit Sink -/

/-- Whether the byte of the next module lies inside the buffer: `CURSOR >> 3 < CAP` (R54, R130). -/
def State.hasRoom (s : State) : Bool := decide (byteOff s.cursor < s.cap)

/-- The stored case of `WriteModule`: one bit of BUF, and `CURSOR <- CURSOR + 1` (R130). -/
def State.storeModule (o : BitOrder) (m : Module) (s : State) : State :=
  { s with buf := writeBit o s.buf s.cursor m, cursor := s.cursor + 1 }

/-- `WriteModule(m)` (R130). It does not read `ERR`. -/
def writeModule (o : BitOrder) (m : Module) (s : State) : State :=
  if s.hasRoom then s.storeModule o m else s.flagErr

/-- `WriteModule` of each module in turn, with no early exit on overflow (R131). -/
def writeAll (o : BitOrder) : List Module → State → State
  | [], s => s
  | m :: ms, s => writeAll o ms (writeModule o m s)

/-- The low `w` bits of `p`, most significant first (R131). -/
def patModules (p : Nat) : Nat → List Module
  | 0 => []
  | w + 1 => p.testBit w :: patModules p w

/-- `WriteModules(p, w)` (R131). -/
def writeModules (o : BitOrder) (p w : Nat) (s : State) : State := writeAll o (patModules p w) s

/-- `Quiet(n)`: `n` light modules (R133). -/
def quiet (o : BitOrder) (n : Nat) (s : State) : State := writeAll o (List.replicate n light) s

end Sys2Proof.Machine
end

