-- ==== Sys2Proof/Machine/Sink.lean ====
section
/-! DEFINITION. The Bit Sink commands: WRMOD, QUIET, RDMOD (R134, R135, R137). -/

namespace Sys2Proof.Machine

/-- `WRMOD pat, width` (R134). A width above 16 is no command and is refused ILLEGAL (R97). -/
def execWrmod (pat : BitVec 16) (width : BitVec 5) (s : State) : Host.Outcome State Fault Refusal :=
  if widthLegal width then .next ((writeModules Config.bitOrder pat.toNat width.toNat s).respond .ok 0)
  else .next (s.refuse .illegal)

/-- `QUIET n` (R135). -/
def execQuiet (n : BitVec 16) (s : State) : Host.Outcome State Fault Refusal :=
  .next ((quiet Config.bitOrder n.toNat s).respond .ok 0)

/-- `RDMOD idx` (R137): the module value 0 or 1, or refused RANGE outside the buffer. -/
def execRdmod (idx : BitVec 28) (s : State) : Host.Outcome State Fault Refusal :=
  if byteOff idx.toNat < s.cap then
    .next (s.respond .ok (readModule Config.bitOrder s.buf idx.toNat).toNat)
  else .next (s.refuse .range)

end Sys2Proof.Machine
end

