-- ==== Sys2Proof/Machine/Flags.lean ====
section
/-! DEFINITION. The tests that set or read `ERR` (R211 to R214) and the status word (R31). -/

namespace Sys2Proof.Machine

/-- E1, the transition that `ChangeCode` flags once the equality test has failed: from STOP, or to NONE or STOP (R152,
R211). -/
def illegalTransition (cur t : CodeSet) : Bool :=
  decide (cur = .stop) || decide (t = .none) || decide (t = .stop)

/-- E2: the byte is negative when read as a signed 8-bit value, that is `b >= 0x80` (R156, R212). -/
def unencodable (b : Byte) : Bool := decide (0x80 ≤ b.toNat)

/-- E4 and the already-in-error form: `AppendSymbol` refuses when `ERR = 1` or `CODE = STOP` (R150, R214). -/
def State.inert (s : State) : Bool := s.err || decide (s.code = .stop)

/-- The STATUS register: `ERR + 2 * CODE + 16 * CHK` (R31). The overflow test E3 (R213) is `State.hasRoom`. -/
def State.statusWord (s : State) : Nat := s.err.toNat + 2 * s.code.number + 16 * s.chk.val

/-- `reg[n]`, the read-only register view (R31). -/
def State.regView (s : State) : RegSel → Nat
  | .cursor => s.cursor
  | .status => s.statusWord
  | .nsym => s.nsym
  | .cap => s.cap

end Sys2Proof.Machine
end

