-- ==== Sys2Proof/Machine/Operands.lean ====
section
/-! DEFINITION. Operand assembly: the text bytes with lookahead (R57), digits and symbol values (R86 to R89), the byte
classification (R155) and the compaction test (R157). -/

namespace Sys2Proof.Machine

/-- `TxtByte(a)` of a text of `len` bytes; `none` is ABSENT (R57). -/
def txtByte (txt : Memory) (len a : Nat) : Option Byte :=
  if a < len then some (txt.read a) else none

/-- `IsDigit`, total on bytes and ABSENT (R86). -/
def isDigit : Option Byte → Bool
  | some b => decide (0x30 ≤ b.toNat ∧ b.toNat ≤ 0x39)
  | none => false

/-- `PairSym(b0, b1)`, for two digit bytes (R87). -/
def pairSym (b0 b1 : Byte) : Nat := 10 * (b0.toNat - 0x30) + (b1.toNat - 0x30)

/-- `CharSym(b)`, for a byte `b <= 0x7F` (R88). -/
def charSym (b : Byte) : Nat := if b.toNat ≤ Config.ctlHi then b.toNat + 64 else b.toNat - 32

/-- `START(t)`: the START symbol of A, B and C; NONE and STOP have none (R89). -/
def startSym : CodeSet → Option Nat
  | .a => some 103
  | .b => some 104
  | .c => some 105
  | .none => none
  | .stop => none

/-- `SWITCH(t)`: the switch symbol of A, B and C; NONE and STOP have none (R89). -/
def switchSym : CodeSet → Option Nat
  | .a => some 101
  | .b => some 100
  | .c => some 99
  | .none => none
  | .stop => none

/-- `STOPSYM` (R89). -/
def stopSym : Nat := 106

/-- The symbol that a legal transition from `cur` to `t` emits; `none` is an illegal transition: from STOP, or to NONE
or STOP (R152, R154). -/
def transitionSym (cur t : CodeSet) : Option Nat :=
  match cur with
  | .stop => none
  | .none => startSym t
  | .a => switchSym t
  | .b => switchSym t
  | .c => switchSym t

/-- `Required(b, FIX)`; `none` is NOREQ. `lo` is the parameter `B_REQ_LO` (R155). -/
def required (lo : Nat) (b : Byte) : Fix → Option CodeSet
  | .a => some .a
  | .b => some .b
  | .c => some .c
  | .auto =>
    if b.toNat ≤ Config.ctlHi then some .a
    else if lo ≤ b.toNat then some .b
    else none

/-- `Target(b, FIX)`: Code B where nothing is required (R155). -/
def target (lo : Nat) (b : Byte) (fix : Fix) : CodeSet := (required lo b fix).getD .b

/-- The compaction test on the four digit tests of the window (R157). -/
def compact (d0 d1 d2 d3 : Bool) (fix : Fix) (code : CodeSet) : Bool :=
  d0 && d1 && decide (fix = .auto) && !(!(d2 && d3) && (decide (code = .a) || decide (code = .b)))

/-- `Compact(p, FIX)` at position `p` of a text of `len` bytes, with the code set as it stands (R157). -/
def compactAt (txt : Memory) (len p : Nat) (fix : Fix) (code : CodeSet) : Bool :=
  compact (isDigit (txtByte txt len p)) (isDigit (txtByte txt len (p + 1)))
    (isDigit (txtByte txt len (p + 2))) (isDigit (txtByte txt len (p + 3))) fix code

end Sys2Proof.Machine
end

