-- ==== Sys2Proof/Machine/Encoder.lean ====
section
/-! DEFINITION. The Code128 Encoder: `AppendSymbol`, `ChangeCode`, `ByteStep`, `Append`, `Finalize` and the commands
APSYM, CHCODE, APPEND, FINAL (R150 to R161). -/

namespace Sys2Proof.Machine

/-- The accepted case of `AppendSymbol`: the modules, then checksum and count, whether or not they overflowed
(R150). -/
def emitSymbol (o : BitOrder) (c : Nat) (s : State) : State :=
  (writeModules o (symRom c).pat (symRom c).width s).countSymbol c

/-- `AppendSymbol(c)` (R150). -/
def appendSymbol (o : BitOrder) (c : Nat) (s : State) : State :=
  if s.inert then s.flagErr else emitSymbol o c s

/-- `ChangeCode(t)` (R152): equality first; then legality; then the symbol, and CODE whether or not the symbol was
accepted (D12). -/
def changeCode (o : BitOrder) (t : CodeSet) (s : State) : State :=
  if t = s.code then s
  else
    match transitionSym s.code t with
    | none => s.flagErr
    | some c => (appendSymbol o c s).setCode t

/-- `ByteStep(FIX)` at `TXTPOS < LEN` (R158). -/
def byteStep (o : BitOrder) (fix : Fix) (len : Nat) (s : State) : State :=
  let p := s.pos
  let b := s.txt.read p
  if unencodable b then s.flagErr.setPos (p + 1)
  else if compactAt s.txt len p fix s.code then
    (appendSymbol o (pairSym b (s.txt.read (p + 1))) (changeCode o .c s)).setPos (p + 2)
  else
    (appendSymbol o (charSym b) (changeCode o (target Config.bReqLo b fix) s)).setPos (p + 1)

/-- `while TXTPOS < LEN: ByteStep(FIX)`, with at most `fuel` steps; `LEN` steps are enough, since each adds 1 or 2 to
TXTPOS (R159). -/
def appendLoop (o : BitOrder) (fix : Fix) (len : Nat) : Nat → State → State
  | 0, s => s
  | fuel + 1, s => if s.pos < len then appendLoop o fix len fuel (byteStep o fix len s) else s

/-- `Append(FIX, LEN)` (R159). -/
def append (o : BitOrder) (fix : Fix) (len : Nat) (s : State) : State :=
  (appendLoop o fix len len (s.setPos 0)).clearPos

/-- `if CODE = NONE then call ChangeCode(B)`, the start of `Finalize` (R160). -/
def ensureStarted (o : BitOrder) (s : State) : State :=
  if s.code = .none then changeCode o .b s else s

/-- `call AppendSymbol(CHK)`: the check symbol is the checksum as it stands (R160). -/
def appendCheck (o : BitOrder) (s : State) : State := appendSymbol o s.chk.val s

/-- `Finalize()` (R160). -/
def finalize (o : BitOrder) (s : State) : State :=
  if s.code = .stop then s
  else (appendSymbol o stopSym (appendCheck o (ensureStarted o s))).setCode .stop

/-- `CHCODE tgt` (R153). -/
def execChcode (tgt : CodeSet) (s : State) : Host.Outcome State Fault Refusal :=
  .next ((changeCode Config.bitOrder tgt s).respond .ok 0)

/-- `APSYM sym` (R151). A symbol above 106 is no command and is refused ILLEGAL (R97). -/
def execApsym (sym : BitVec 7) (s : State) : Host.Outcome State Fault Refusal :=
  if symLegal sym then .next ((appendSymbol Config.bitOrder sym.toNat s).respond .ok 0)
  else .next (s.refuse .illegal)

/-- `APPEND fix, text` (R159). -/
def execAppend (fix : Fix) (len : BitVec 16) (s : State) : Host.Outcome State Fault Refusal :=
  .next ((append Config.bitOrder fix len.toNat s).respond .ok 0)

/-- `FINAL` (R161). -/
def execFinal (s : State) : Host.Outcome State Fault Refusal :=
  .next ((finalize Config.bitOrder s).respond .ok 0)

end Sys2Proof.Machine
end

