-- ==== Sys2Proof/Machine/TopLevel.lean ====
section
/-! DEFINITION. The top level: INIT, ENCODE, RDREG (R191 to R193). -/

namespace Sys2Proof.Machine

/-- `INIT cap` (R191). -/
def execInit (cap : BitVec 24) (s : State) : Host.Outcome State Fault Refusal :=
  .next ((s.setCap cap.toNat).runReset.respond .ok 0)

/-- The procedure calls of ENCODE (R192). -/
def encodeRun (o : BitOrder) (fix : Fix) (qz len : Nat) (s : State) : State :=
  quiet o qz (finalize o (append o fix len (quiet o qz s.runReset)))

/-- `respond CURSOR` (R192). -/
def respondCursor (s : State) : State := s.respond .ok s.cursor

/-- `ENCODE fix, qz, text` (R192). -/
def execEncode (fix : Fix) (qz : BitVec 8) (len : BitVec 16) (s : State) : Host.Outcome State Fault Refusal :=
  .next (respondCursor (encodeRun Config.bitOrder fix qz.toNat len.toNat s))

/-- `RDREG reg` (R193). -/
def execRdreg (reg : RegSel) (s : State) : Host.Outcome State Fault Refusal :=
  .next (s.respond .ok (s.regView reg))

end Sys2Proof.Machine
end

