-- ==== Sys2Proof/Machine/Dispatch.lean ====
section
/-! DEFINITION. One arm per command (R82). -/

namespace Sys2Proof.Machine

def exec (i : Instr) (s : State) : Host.Outcome State Fault Refusal :=
  match i with
  | .init cap => Sys2Proof.Machine.execInit cap s
  | .wrmod pat width => Sys2Proof.Machine.execWrmod pat width s
  | .quiet n => Sys2Proof.Machine.execQuiet n s
  | .chcode tgt => Sys2Proof.Machine.execChcode tgt s
  | .apsym sym => Sys2Proof.Machine.execApsym sym s
  | .append fix len => Sys2Proof.Machine.execAppend fix len s
  | .final => Sys2Proof.Machine.execFinal s
  | .encode fix qz len => Sys2Proof.Machine.execEncode fix qz len s
  | .rdreg reg => Sys2Proof.Machine.execRdreg reg s
  | .rdmod idx => Sys2Proof.Machine.execRdmod idx s

end Sys2Proof.Machine
end

