-- ==== Sys2Proof/Machine/HostPort.lean ====
section
/-! DEFINITION. The host's moves that are no commands: placing bytes in TXT or BUF (R28, R29, R242, R251, R252) and
hardware reset between commands (R240); and the refusal of a word that is no command (R97). -/

namespace Sys2Proof.Machine

/-- The host places bytes in TXT from offset `off` on. An offset no LEN can reach does not exist (R29). -/
def hostPlaceText (off : Nat) (bytes : List Byte) (s : State) : Host.Outcome State Fault Refusal :=
  if off + bytes.length ≤ Config.txtBytes then .next (s.setTxt (s.txt.writeBytes off bytes))
  else .fault .txtOffset

/-- The host places bytes in BUF from offset `off` on. An offset no CAP can declare does not exist (R26, R28). -/
def hostPlaceBuf (off : Nat) (bytes : List Byte) (s : State) : Host.Outcome State Fault Refusal :=
  if off + bytes.length ≤ Config.bufBytes then .next (s.setBuf (s.buf.writeBytes off bytes))
  else .fault .bufOffset

/-- The host resets the hardware (R240). -/
def hostHardReset (s : State) : Host.Outcome State Fault Refusal := .next s.hardReset

/-- An illegal word: no register, no byte of BUF and not ERR changes; the response is `(ILLEGAL, 0)` (R97, R215). -/
def refuseIllegal (s : State) : Host.Outcome State Fault Refusal := .next (s.refuse .illegal)

/-- The host queues command word `w` before its other moves. -/
def issueWord (w : Word) (s : State) : State := s.setAgenda (.command w :: s.agenda)

end Sys2Proof.Machine
end

