-- ==== Sys2Proof/Machine/Step.lean ====
section
/-! DEFINITION. One step: the host's next move is taken and carried out whole (R4, R5). -/

namespace Sys2Proof.Machine

/-- A command word is decoded and runs as one atomic step (R5); a word that is no command is refused (R97). -/
def runWord (w : Word) (s : State) : Host.Outcome State Fault Refusal :=
  match decode w with
  | .ok i => exec i s
  | .error _ => refuseIllegal s

/-- One move of the host. -/
def runMove (m : HostMove) (s : State) : Host.Outcome State Fault Refusal :=
  match m with
  | .command w => runWord w s
  | .placeText off bytes => hostPlaceText off bytes s
  | .placeBuf off bytes => hostPlaceBuf off bytes s
  | .hardReset => hostHardReset s

/-- One step: the next pending move. With none pending the block does nothing and waits (R240). -/
def step (s : State) : Host.Outcome State Fault Refusal :=
  match s.agenda with
  | [] => .next s
  | m :: ms => runMove m (s.setAgenda ms)

/-- `s` with the given command word as the next one the host issues. -/
def State.withFetchWord (s : State) (nbits w : Nat) : State := issueWord (tableWord nbits w) s

end Sys2Proof.Machine
end

