-- ==== Sys2Proof/Machine/Pseudo.lean ====
section
/-! DEFINITION. The pseudo-instructions of R102, each with the command it stands for and what the host takes from that
command's response. -/

namespace Sys2Proof.Machine

/-- The pseudo-instructions (R102). -/
inductive Pseudo where
  | rdlen
  | rdstat
  | rderr
  | start (x : CodeSet)
  | lightRun (n : BitVec 16)
  | wrsym (c : Nat)
  | encodeq0 (fix : Fix) (len : BitVec 16)
deriving DecidableEq, Repr

/-- The command a pseudo-instruction expands to (R102). WRSYM writes the bars of a symbol with no checksum or count. -/
def Pseudo.expansion : Pseudo → Instr
  | .rdlen => .rdreg .cursor
  | .rdstat => .rdreg .status
  | .rderr => .rdreg .status
  | .start x => .chcode x
  | .lightRun n => .quiet n
  | .wrsym c => .wrmod (BitVec.ofNat 16 (symRom c).pat) (BitVec.ofNat 5 (symRom c).width)
  | .encodeq0 fix len => .encode fix 0 len

/-- What a pseudo-instruction yields of the response value of its command: bit 0 for RDERR, the whole value for every
other one (R102). -/
def Pseudo.result (v : Word) : Pseudo → Word
  | .rdlen => v
  | .rdstat => v
  | .rderr => v &&& 1#32
  | .start _ => v
  | .lightRun _ => v
  | .wrsym _ => v
  | .encodeq0 _ _ => v

end Sys2Proof.Machine
end

