-- ==== Sys2Proof/Safety.lean ====
section
/-! DEFINITION. The terms in which claims are made: the invariant of reachable states (R33), what the sink does with an
offered run of modules (R130 to R132), what a command leaves alone (R138), the symbol sequence that a text stands for
(R155 to R160, R162, R163), a reader's inverse lookup (R116) and reading of symbols (R115), and the host's sizing
arithmetic (R200). -/

namespace Sys2Proof.Machine

/-! ### The invariant -/

/-- What every reachable state satisfies: the canonical form of both spaces and their extents (R60), the width of CAP
(R26), the bounds of R33 on CURSOR and NSYM, the empty checksum (R162 with no symbol), and TXTPOS without a value
between commands (R27). `CHK <= 102` and `CODE <= 4` hold by the types. -/
structure State.Inv (s : State) : Prop where
  bufWf : s.buf.wf = true
  bufExtent : ∀ cell ∈ s.buf, cell.1 < Config.bufBytes
  txtWf : s.txt.wf = true
  txtExtent : ∀ cell ∈ s.txt, cell.1 < Config.txtBytes
  capWidth : s.cap < 2 ^ Config.capW
  cursorBound : s.cursor ≤ 8 * s.cap
  symbolsStored : s.err = false → 11 * s.nsym ≤ s.cursor
  symbolsBound : 11 * (s.nsym - 1) ≤ s.cursor
  checksumStart : s.nsym = 0 → s.chk = 0
  noTextPos : s.txtpos = none

/-! ### What the sink does with a run of modules -/

/-- CURSOR after `w` modules have been offered to `WriteModule`: it advances up to the capacity and then sticks
(R130, R132). -/
def State.cursorAfter (s : State) (w : Nat) : Nat := max s.cursor (min (s.cursor + w) (8 * s.cap))

/-- ERR after `w` modules have been offered: set when one of them was dropped (R130, R138 d). -/
def State.errAfter (s : State) (w : Nat) : Bool := s.err || decide (s.cursorAfter w < s.cursor + w)

/-- How many of `n` symbols offered in turn to `AppendSymbol` it accepts, from a state with ERR clear and CODE not STOP:
the first one, and each later one as long as those before it, of 11 modules each, all fitted. A symbol that overflows is
still counted, and every later one is refused (R150). -/
def State.accepts (s : State) (n : Nat) : Nat := min n ((8 * s.cap - s.cursor) / Config.wSym + 1)

/-- The modules at the indices `from0 <= j < upto` of the buffer of `t` are those of `ms` in order, as far as they
reach. -/
def Stored (t : State) (from0 upto : Nat) (ms : List Module) : Prop :=
  ∀ k, from0 + k < upto → ms[k]? = some (readModule Config.bitOrder t.buf (from0 + k))

/-- BUF is unchanged outside the module indices `lo <= j < hi`: every bit outside them, and every byte that holds none
of them (R138 c). -/
def BufKept (lo hi : Nat) (s t : State) : Prop :=
  (∀ j, j < lo ∨ hi ≤ j → readModule Config.bitOrder t.buf j = readModule Config.bitOrder s.buf j) ∧
  ∀ a, 8 * a + 8 ≤ lo ∨ hi ≤ 8 * a → t.buf.read a = s.buf.read a

/-- What no command touches: TXT, the host's pending moves, and (but for INIT) CAP (R26, R29). -/
def HostKept (s t : State) : Prop := t.txt = s.txt ∧ t.agenda = s.agenda ∧ t.cap = s.cap

/-- The registers of the encoder, which the sink never changes (R130, R134, R135). -/
def EncoderKept (s t : State) : Prop := t.code = s.code ∧ t.chk = s.chk ∧ t.nsym = s.nsym

/-- The commands that start a new run (R190). -/
def startsRun : Instr → Bool
  | .init _ => true
  | .wrmod _ _ => false
  | .quiet _ => false
  | .chcode _ => false
  | .apsym _ => false
  | .append _ _ => false
  | .final => false
  | .encode _ _ _ => true
  | .rdreg _ => false
  | .rdmod _ => false

/-- The encoder's own commands, APSYM, CHCODE, APPEND and FINAL (R164). -/
def encoderCommand : Instr → Bool
  | .init _ => false
  | .wrmod _ _ => false
  | .quiet _ => false
  | .chcode _ => true
  | .apsym _ => true
  | .append _ _ => true
  | .final => true
  | .encode _ _ _ => false
  | .rdreg _ => false
  | .rdmod _ => false

/-- A procedure of the block is the same under both bit orders but for where its modules stand: the registers it leaves
are equal, and so is the sequence of the modules it stores (R51, R195). -/
def SameModules (P : BitOrder → State → State) : Prop :=
  ∀ s : State, s.buf.wf = true →
    ∃ b, P .lsbFirst s = { P .msbFirst s with buf := b } ∧
      ∀ j, s.cursor ≤ j → j < (P .msbFirst s).cursor →
        readModule .lsbFirst b j = readModule .msbFirst (P .msbFirst s).buf j

/-! ### The symbols of a text -/

/-- The bytes of the text of a command of length `len` (R29, R85). -/
def State.text (s : State) (len : Nat) : List Byte := (List.range len).map s.txt.read

/-- The symbol, if any, that a change of code set emits (R152, R154). -/
def moveSyms (cur t : CodeSet) : List Nat := if t = cur then [] else (transitionSym cur t).toList

/-- The symbols of a text of encodable bytes, from code set `cur` on (R158), as a function of the bytes alone. -/
def textSymbols (fix : Fix) : CodeSet → List Byte → List Nat
  | _, [] => []
  | cur, [b] => moveSyms cur (target Config.bReqLo b fix) ++ [charSym b]
  | cur, b0 :: b1 :: rest =>
    if compact (isDigit (some b0)) (isDigit (some b1)) (isDigit rest[0]?) (isDigit rest[1]?) fix cur then
      moveSyms cur .c ++ pairSym b0 b1 :: textSymbols fix .c rest
    else
      moveSyms cur (target Config.bReqLo b0 fix) ++
        charSym b0 :: textSymbols fix (target Config.bReqLo b0 fix) (b1 :: rest)

/-- The code set after a text of encodable bytes (R158). -/
def textCode (fix : Fix) : CodeSet → List Byte → CodeSet
  | cur, [] => cur
  | _, [b] => target Config.bReqLo b fix
  | cur, b0 :: b1 :: rest =>
    if compact (isDigit (some b0)) (isDigit (some b1)) (isDigit rest[0]?) (isDigit rest[1]?) fix cur then
      textCode fix .c rest
    else textCode fix (target Config.bReqLo b0 fix) (b1 :: rest)

/-- The positionally weighted sum of symbols that stand at positions `k`, `k + 1` and so on: weight `max(k, 1)`
(R150, R162). -/
def weightedFrom (k : Nat) : List Nat → Nat
  | [] => 0
  | c :: cs => max k 1 * c + weightedFrom (k + 1) cs

/-- The symbols of a whole run before the check symbol: START-B alone for an empty text (R160). -/
def bodySymbols (fix : Fix) (bytes : List Byte) : List Nat :=
  if bytes = [] then [104] else textSymbols fix .none bytes

/-- The check symbol of a run (R160, R162). -/
def checkSymbol (fix : Fix) (bytes : List Byte) : Nat := weightedFrom 0 (bodySymbols fix bytes) % Config.modulus

/-- All symbols of a whole run: the body, the check symbol, STOP (R163). -/
def runSymbols (fix : Fix) (bytes : List Byte) : List Nat :=
  bodySymbols fix bytes ++ [checkSymbol fix bytes, stopSym]

/-- The modules of a list of symbols. -/
def symbolModules (syms : List Nat) : List Module := syms.flatMap symModules

/-- The modules of an ENCODE with ample room: quiet zone, symbols, quiet zone (R192). -/
def runModules (fix : Fix) (qz : Nat) (bytes : List Byte) : List Module :=
  List.replicate qz light ++ symbolModules (runSymbols fix bytes) ++ List.replicate qz light

/-- Every byte is encodable (R156). -/
def encodable (bytes : List Byte) : Prop := ∀ b ∈ bytes, unencodable b = false

/-! ### The inverse lookup -/

/-- The symbol of 0 to 105 with these modules (R116). -/
def symbolOf (ms : List Module) : Option Nat := (List.range 106).find? (fun c => symModules c == ms)

/-- The parse of a module stream without its quiet zones, with at most `fuel` symbols: eleven modules at a time, and the
thirteen of STOP at the end (R116). -/
def parseStream : Nat → List Module → Option (List Nat)
  | 0, _ => none
  | fuel + 1, ms =>
    if ms = symModules stopSym then some [stopSym]
    else
      match symbolOf (ms.take 11) with
      | none => none
      | some c => (parseStream fuel (ms.drop 11)).map (c :: ·)

/-- What a reader takes from one symbol (R115). -/
inductive Meaning where
  /-- One character in Code A or B, two digits in Code C. -/
  | chars (bytes : List Byte)
  /-- A START or switch symbol. -/
  | enter (t : CodeSet)
  /-- STOP. -/
  | stop
  /-- A function code, or a value that no code set has been chosen for. What a reader does there is the model's choice
  (`readText`, assumption 19). -/
  | other
deriving DecidableEq, Repr

/-- The meaning of symbol `v` of 0 to 106 in code set `cur`, column by column (R115). -/
def meaning (cur : CodeSet) (v : Nat) : Meaning :=
  if v = 106 then .stop
  else if v = 103 then .enter .a
  else if v = 104 then .enter .b
  else if v = 105 then .enter .c
  else
    match cur with
    | .a =>
      if v ≤ 63 then .chars [BitVec.ofNat 8 (v + 32)]
      else if v ≤ 95 then .chars [BitVec.ofNat 8 (v - 64)]
      else if v = 99 then .enter .c
      else if v = 100 then .enter .b
      else .other
    | .b =>
      if v ≤ 95 then .chars [BitVec.ofNat 8 (v + 32)]
      else if v = 99 then .enter .c
      else if v = 101 then .enter .a
      else .other
    | .c =>
      if v ≤ 99 then .chars [BitVec.ofNat 8 (0x30 + v / 10), BitVec.ofNat 8 (0x30 + v % 10)]
      else if v = 100 then .enter .b
      else if v = 101 then .enter .a
      else .other
    | .none => .other
    | .stop => .other

/-- The text that a reader takes from a list of symbols, from code set `cur` on (R115). DESIGN CHOICE (assumption 19):
R115 names the function codes (96 to 98 and 102 in A and B, 100 in B, 101 in A, 102 in C; 98 is SHIFT) and gives them no
effect on the text; here such a symbol (`Meaning.other`) is dropped and the code set stays. No text policy emits one. -/
def readText : CodeSet → List Nat → List Byte
  | _, [] => []
  | cur, v :: vs =>
    match meaning cur v with
    | .chars bytes => bytes ++ readText cur vs
    | .enter t => readText t vs
    | .stop => []
    | .other => readText cur vs

/-! ### The host's sizing arithmetic -/

/-- The source's symbol count for `n` general characters (R200); no bound (R254). -/
def symbolsGeneral (n : Nat) : Nat := 3 + n

/-- The modules of `n` symbols with quiet zones of `q` (R200). -/
def modulesFor (n q : Nat) : Nat := 11 * n + 2 + 2 * q

/-- The bytes of `n` symbols with quiet zones of `q` (R200). -/
def bytesFor (n q : Nat) : Nat := (modulesFor n q + 7) / 8

end Sys2Proof.Machine
end

