-- ==== Sys2Proof/Certificates/Slice0/Obligations.lean ====
section
/-! DEFINITION. The statements for the provers. OBLIGATIONS.json lists them with their rules. -/

open Sys2Proof Sys2Proof.Machine

/-! ### Encoding -/

/-- Decoding the word of a well-formed command gives the command back, with every operand (R81, R83, R91, R101). -/
def Obligations.EncodingRoundTrip : Prop :=
  ∀ i : Instr, i.wf = true → decode (encode i) = .ok i

/-- A word that decodes is the one word of a well-formed command: no bit of a legal word is dropped (R80, R81, R97). -/
def Obligations.DecodedWordReencodes : Prop :=
  ∀ (w : Word) (i : Instr), decode w = .ok i → i.wf = true ∧ encode i = w

/-- R83: a word is the named command iff `(w & mask) = match` and its field check holds; no word meets the match and
mask of two commands. -/
def Obligations.DecodeFollowsMatchMaskTable : Prop :=
  (∀ (w : Word) (j : Instr),
    (rowOf j).accepts w ↔ ∃ i, decode w = .ok i ∧ (rowOf i).pattern = (rowOf j).pattern) ∧
  ∀ (w : Word) (i j : Instr), w &&& (rowOf i).mask = (rowOf i).pattern → w &&& (rowOf j).mask = (rowOf j).pattern →
    (rowOf i).pattern = (rowOf j).pattern

/-- R97: which words are illegal, and that an illegal word changes nothing and is answered `(ILLEGAL, 0)`. -/
def Obligations.IllegalWordsAreRefused : Prop :=
  ∀ w : Word,
    ((∃ e, decode w = .error e) ↔
      (opc w).toNat = 0 ∨ 0xB ≤ (opc w).toNat ∨
      ((opc w).toNat = 1 ∧ field w 24 4 ≠ 0) ∨
      ((opc w).toNat = 2 ∧ (field w 21 7 ≠ 0 ∨ 16 < (field w 16 5).toNat)) ∨
      ((opc w).toNat = 3 ∧ field w 16 12 ≠ 0) ∨
      ((opc w).toNat = 4 ∧ (field w 3 25 ≠ 0 ∨ 4 < (field w 0 3).toNat)) ∨
      ((opc w).toNat = 5 ∧ (field w 7 21 ≠ 0 ∨ 106 < (field w 0 7).toNat)) ∨
      ((opc w).toNat = 6 ∧ (field w 27 1 ≠ 0 ∨ field w 16 8 ≠ 0 ∨ 3 < (field w 24 3).toNat)) ∨
      ((opc w).toNat = 7 ∧ field w 0 28 ≠ 0) ∨
      ((opc w).toNat = 8 ∧ (field w 27 1 ≠ 0 ∨ 3 < (field w 24 3).toNat)) ∨
      ((opc w).toNat = 9 ∧ (field w 3 25 ≠ 0 ∨ 3 < (field w 0 3).toNat))) ∧
    ∀ (s : State) (ms : List HostMove), s.agenda = .command w :: ms → (∃ e, decode w = .error e) →
      step s = .next { s with agenda := ms, response := some ⟨.illegal, 0⟩ }

/-- Words of the spec's decode vectors (95_test_vectors.md, W1 to W12) decode to the commands they stand for. -/
def Obligations.SpecWordsDecode : Prop :=
  decode 0x10000006#32 = .ok (.init 6) ∧
  decode 0x200B0133#32 = .ok (.wrmod 0x133 11) ∧
  decode 0x3000000A#32 = .ok (.quiet 10) ∧
  decode 0x40000002#32 = .ok (.chcode .b) ∧
  decode 0x50000068#32 = .ok (.apsym 104) ∧
  decode 0x61000002#32 = .ok (.append .a 2) ∧
  decode 0x70000000#32 = .ok .final ∧
  decode 0x800A0001#32 = .ok (.encode .auto 10 1) ∧
  decode 0x83FF0000#32 = .ok (.encode .c 255 0) ∧
  decode 0x90000001#32 = .ok (.rdreg .status) ∧
  decode 0xA000002D#32 = .ok (.rdmod 45) ∧
  decode 0xAFFFFFFF#32 = .ok (.rdmod 268435455)

/-- When the host's next move is a command word that decodes to `i`, the step is `exec i` with that move taken; the
step adds nothing else (R4, R5). -/
def Obligations.StepRunsDecodedCommand : Prop :=
  ∀ (s : State) (w : Word) (i : Instr) (ms : List HostMove),
    s.agenda = .command w :: ms → decode w = .ok i → step s = exec i { s with agenda := ms }

/-- Operands outside R84's ranges are refused ILLEGAL with no effect: WRMOD with WIDTH above 16, APSYM with SYM above
106. The spec refuses the word (R97, R134, R151); that `exec` refuses the term, which no word decodes to, is the model's
choice (assumption 14, DEDUCED). -/
def Obligations.OperandsOutOfRangeRefused : Prop :=
  (∀ (pat : BitVec 16) (width : BitVec 5) (s : State), 16 < width.toNat →
    exec (.wrmod pat width) s = .next { s with response := some ⟨.illegal, 0⟩ }) ∧
  ∀ (sym : BitVec 7) (s : State), 106 < sym.toNat →
    exec (.apsym sym) s = .next { s with response := some ⟨.illegal, 0⟩ }

/-! ### The host's moves and reset -/

/-- The host places bytes in TXT or BUF: they read back, every other byte and the registers stay, and no response is
given; an offset that no LEN or CAP can reach faults (the model's choice, assumption 6). -/
def Obligations.HostPlacesBytes : Prop :=
  ∀ (s : State) (off : Nat) (bytes : List Byte) (ms : List HostMove),
    (s.agenda = .placeText off bytes :: ms → s.txt.wf = true →
      (off + bytes.length ≤ 65535 →
        ∃ m, step s = .next { s with txt := m, agenda := ms } ∧ m.wf = true ∧
          (∀ k (h : k < bytes.length), m.read (off + k) = bytes[k]) ∧
          ∀ a, a < off ∨ off + bytes.length ≤ a → m.read a = s.txt.read a) ∧
      (65535 < off + bytes.length → step s = .fault .txtOffset)) ∧
    (s.agenda = .placeBuf off bytes :: ms → s.buf.wf = true →
      (off + bytes.length ≤ 16777215 →
        ∃ m, step s = .next { s with buf := m, agenda := ms } ∧ m.wf = true ∧
          (∀ k (h : k < bytes.length), m.read (off + k) = bytes[k]) ∧
          ∀ a, a < off ∨ off + bytes.length ≤ a → m.read a = s.buf.read a) ∧
      (16777215 < off + bytes.length → step s = .fault .bufOffset))

/-- Hardware reset (R240): every register is 0 and TXTPOS holds no value; with no command pending the block changes
nothing; and any WRMOD, QUIET, APSYM, CHCODE, APPEND, FINAL or ENCODE before an INIT touches no byte of BUF and stores
no module. The clause on a reset as a move of the host is the model's choice: that it is such a move and keeps BUF, TXT
and the moves still to come is assumption 11 (DEDUCED), that it leaves no response is assumption 4 (DESIGN CHOICE). That
BUF and TXT read as zero at power-up is assumption 3 and is not stated here. -/
def Obligations.HardwareReset : Prop :=
  (State.reset.code = .none ∧ State.reset.chk = 0 ∧ State.reset.nsym = 0 ∧ State.reset.err = false ∧
    State.reset.cursor = 0 ∧ State.reset.cap = 0 ∧ State.reset.txtpos = none) ∧
  (∀ (s : State) (ms : List HostMove), s.agenda = .hardReset :: ms →
    step s = .next { State.reset with buf := s.buf, txt := s.txt, agenda := ms }) ∧
  (∀ s : State, s.agenda = [] → step s = .next s) ∧
  ∀ (i : Instr) (s t : State), (∀ cap, i ≠ .init cap) → s.cap = 0 → s.cursor = 0 → exec i s = .next t →
    t.buf = s.buf ∧ t.cursor = 0

/-! ### The invariant -/

/-- The invariant of R33, R60 and the canonical memories holds after hardware reset. -/
def Obligations.ResetSatisfiesInvariant : Prop := State.reset.Inv

/-- Every step, of a command or of the host, keeps the invariant: CURSOR never passes the capacity, the symbol count
never outruns the stored modules, both spaces stay canonical and inside their extents (R33, R60). -/
def Obligations.StepKeepsInvariant : Prop := ∀ s t : State, s.Inv → step s = .next t → t.Inv

/-- The bounds of R33 that make the register widths of R6 enough: no register of a state that meets the invariant
reaches its width, and the products of the checksum stay below 2^31. TXTPOS has no value between commands, and a byte
step inside one moves it at most to LEN, within its 17 bits (R27). -/
def Obligations.InvariantBoundsRegisters : Prop :=
  (∀ s : State, s.Inv →
    s.chk.val ≤ 102 ∧ s.code.number ≤ 4 ∧ s.cap < 2 ^ 24 ∧ s.cursor ≤ 8 * s.cap ∧ s.cursor < 2 ^ 27 ∧
    (1 ≤ s.nsym → 11 * (s.nsym - 1) ≤ s.cursor) ∧ s.nsym < 2 ^ 24 ∧ max s.nsym 1 * 106 < 2 ^ 31 ∧
    s.statusWord < 2 ^ 11 ∧ s.txtpos = none) ∧
  ∀ (o : BitOrder) (fix : Fix) (len : BitVec 16) (s : State), s.pos < len.toNat →
    s.pos < (byteStep o fix len.toNat s).pos ∧ (byteStep o fix len.toNat s).pos ≤ len.toNat ∧
    (byteStep o fix len.toNat s).pos < 2 ^ 17

/-! ### The Bit Sink -/

/-- R51: module `i` is in byte `i >> 3`, at bit `7 - (i & 7)` under MSB_FIRST and `i & 7` under LSB_FIRST, and the block
is MSB_FIRST. -/
def Obligations.ModuleAddressing : Prop :=
  Config.bitOrder = .msbFirst ∧
  ∀ (buf : Memory) (i : Nat),
    readModule .msbFirst buf i = (buf.read (i >>> 3)).getLsbD (7 - (i &&& 7)) ∧
    readModule .lsbFirst buf i = (buf.read (i >>> 3)).getLsbD (i &&& 7)

/-- R130: with room, `WriteModule` stores one bit and advances CURSOR; without, it flags ERR and changes nothing else.
It does not read ERR. -/
def Obligations.WriteModuleStoresOneBit : Prop :=
  ∀ (o : BitOrder) (m : Module) (s : State),
    (s.cursor >>> 3 < s.cap → s.buf.wf = true →
      ∃ b, writeModule o m s = { s with buf := b, cursor := s.cursor + 1 } ∧ b.wf = true ∧
        readModule o b s.cursor = m ∧ (∀ j, j ≠ s.cursor → readModule o b j = readModule o s.buf j) ∧
        ∀ a, a ≠ s.cursor >>> 3 → b.read a = s.buf.read a) ∧
    (s.cap ≤ s.cursor >>> 3 → writeModule o m s = { s with err := true })

/-- WRMOD (R134, R131): in every state, the leading modules of the pattern that fit are stored most significant first,
the rest are dropped and set ERR; the encoder's registers, CAP, TXT and every other bit of BUF stay. -/
def Obligations.WrmodAppendsPattern : Prop :=
  ∀ (pat : BitVec 16) (width : BitVec 5) (s : State), width.toNat ≤ 16 → s.buf.wf = true →
    ∃ t, exec (.wrmod pat width) s = .next t ∧
      t.cursor = s.cursorAfter width.toNat ∧ t.err = s.errAfter width.toNat ∧
      (∀ k, s.cursor + k < t.cursor →
        readModule Config.bitOrder t.buf (s.cursor + k) = pat.getLsbD (width.toNat - 1 - k)) ∧
      BufKept s.cursor t.cursor s t ∧ EncoderKept s t ∧ HostKept s t ∧ t.txtpos = s.txtpos ∧
      t.response = some ⟨.ok, 0⟩

/-- QUIET (R133, R135): in every state, as many light modules as fit are stored, the rest are dropped and set ERR; the
encoder's registers, CAP, TXT and every other bit of BUF stay. -/
def Obligations.QuietAppendsLightModules : Prop :=
  ∀ (n : BitVec 16) (s : State), s.buf.wf = true →
    ∃ t, exec (.quiet n) s = .next t ∧
      t.cursor = s.cursorAfter n.toNat ∧ t.err = s.errAfter n.toNat ∧
      (∀ j, s.cursor ≤ j → j < t.cursor → readModule Config.bitOrder t.buf j = true) ∧
      BufKept s.cursor t.cursor s t ∧ EncoderKept s t ∧ HostKept s t ∧ t.txtpos = s.txtpos ∧
      t.response = some ⟨.ok, 0⟩

/-- RDMOD (R137): inside the buffer the module's bit is the response, outside it the command is refused RANGE; nothing
else changes. -/
def Obligations.RdmodReturnsModule : Prop :=
  ∀ (idx : BitVec 28) (s : State),
    (idx.toNat >>> 3 < s.cap →
      exec (.rdmod idx) s = .next { s with response := some ⟨.ok,
        if (s.buf.read (idx.toNat >>> 3)).getLsbD (7 - idx.toNat % 8) = true then 1 else 0⟩ }) ∧
    (s.cap ≤ idx.toNat >>> 3 → exec (.rdmod idx) s = .next { s with response := some ⟨.range, 0⟩ })

/-- R132: once the cursor stands at or past the capacity, no command but a run-reset stores a module or moves the
cursor, and each one that offers a module sets ERR; in a state that meets the invariant this is so exactly when
`CURSOR = 8 * CAP`. -/
def Obligations.OverflowIsSticky : Prop :=
  (∀ (i : Instr) (s t : State), startsRun i = false → 8 * s.cap ≤ s.cursor → exec i s = .next t →
    t.cursor = s.cursor ∧ t.buf = s.buf ∧ t.cap = s.cap ∧
    (∀ pat width, i = .wrmod pat width → 0 < width.toNat → width.toNat ≤ 16 → t.err = true) ∧
    (∀ n, i = .quiet n → 0 < n.toNat → t.err = true) ∧
    (∀ tgt, i = .chcode tgt → tgt ≠ s.code → t.err = true) ∧
    (∀ sym, i = .apsym sym → sym.toNat ≤ 106 → t.err = true) ∧
    (∀ fix len, i = .append fix len → 0 < len.toNat → t.err = true) ∧
    (i = .final → s.code ≠ .stop → t.err = true)) ∧
  ∀ s : State, s.Inv → (s.cap ≤ s.cursor >>> 3 ↔ s.cursor = 8 * s.cap)

/-- No command writes a byte of BUF at or beyond the CAP in force, and none lets such a byte show in anything it
computes (R54, R138 a). -/
def Obligations.NoAccessBeyondCapacity : Prop :=
  ∀ (i : Instr) (s t : State), exec i s = .next t →
    (∀ a, s.cap ≤ a → t.buf.read a = s.buf.read a) ∧
    ∀ m : Memory, s.buf.wf = true → m.wf = true → (∀ a, a < s.cap → m.read a = s.buf.read a) →
      ∃ b, exec i { s with buf := m } = .next { t with buf := b } ∧ ∀ a, a < s.cap → b.read a = t.buf.read a

/-- A command writes BUF only between the cursors: inside a run no module is written twice, and the tail keeps what the
host put there (R138 b, c). ENCODE starts again at module 0; INIT, RDREG and RDMOD write nothing. -/
def Obligations.BufferWrittenOnlyBetweenCursors : Prop :=
  ∀ (i : Instr) (s t : State), s.buf.wf = true → exec i s = .next t →
    (startsRun i = false → s.cursor ≤ t.cursor ∧ BufKept s.cursor t.cursor s t) ∧
    (∀ fix qz len, i = .encode fix qz len → BufKept 0 t.cursor s t) ∧
    ((∃ cap, i = .init cap) ∨ (∃ r, i = .rdreg r) ∨ (∃ idx, i = .rdmod idx) → t.buf = s.buf)

/-! ### Run-reset -/

/-- R190: run-reset's values, CAP and BUF untouched; and no command but INIT and ENCODE, which run-reset, clears ERR,
leaves STOP or lowers CURSOR. -/
def Obligations.RunResetIsTheOnlyWayBack : Prop :=
  (∀ s : State, s.runReset.code = .none ∧ s.runReset.chk = 0 ∧ s.runReset.nsym = 0 ∧ s.runReset.err = false ∧
    s.runReset.cursor = 0 ∧ s.runReset.cap = s.cap ∧ s.runReset.buf = s.buf) ∧
  ∀ (i : Instr) (s t : State), startsRun i = false → exec i s = .next t →
    (s.err = true → t.err = true) ∧ (s.code = .stop → t.code = .stop) ∧ s.cursor ≤ t.cursor ∧ s.nsym ≤ t.nsym

/-- INIT (R191): its word; the capacity is latched and the run reset; no byte of BUF is read or written. -/
def Obligations.InitStartsRun : Prop :=
  ∀ (cap : BitVec 24) (s : State),
    decode (BitVec.ofNat 32 (0x10000000 + cap.toNat)) = .ok (.init cap) ∧
    exec (.init cap) s = .next { s with
      cap := cap.toNat, code := .none, chk := 0, nsym := 0, err := false, cursor := 0, response := some ⟨.ok, 0⟩ }

/-- RDREG (R31, R193): the register's value is the response and nothing else changes, in every state; REG above 3 is
illegal. -/
def Obligations.RdregReturnsRegister : Prop :=
  (∀ s : State,
    exec (.rdreg .cursor) s = .next { s with response := some ⟨.ok, BitVec.ofNat 32 s.cursor⟩ } ∧
    exec (.rdreg .status) s = .next { s with response := some ⟨.ok,
      BitVec.ofNat 32 ((if s.err = true then 1 else 0) + 2 * s.code.number + 16 * s.chk.val)⟩ } ∧
    exec (.rdreg .nsym) s = .next { s with response := some ⟨.ok, BitVec.ofNat 32 s.nsym⟩ } ∧
    exec (.rdreg .cap) s = .next { s with response := some ⟨.ok, BitVec.ofNat 32 s.cap⟩ }) ∧
  ∀ w : Word, (opc w).toNat = 9 → 3 < (field w 0 3).toNat → ∃ e, decode w = .error e

/-! ### The encoder -/

/-- APSYM accepted (R150, R151): with ERR clear and CODE not STOP, the symbol's modules are offered to the sink, and CHK
and NSYM are updated whether or not they all fit; CODE and everything else stays. -/
def Obligations.ApsymEmitsSymbol : Prop :=
  ∀ (sym : BitVec 7) (s : State), sym.toNat ≤ 106 → s.err = false → s.code ≠ .stop → s.buf.wf = true →
    ∃ t, exec (.apsym sym) s = .next t ∧
      t.cursor = s.cursorAfter (if sym.toNat = 106 then 13 else 11) ∧
      t.err = s.errAfter (if sym.toNat = 106 then 13 else 11) ∧
      Stored t s.cursor t.cursor (symModules sym.toNat) ∧
      t.chk.val = (s.chk.val + max s.nsym 1 * sym.toNat) % 103 ∧ t.nsym = s.nsym + 1 ∧ t.code = s.code ∧
      BufKept s.cursor t.cursor s t ∧ HostKept s t ∧ t.txtpos = s.txtpos ∧ t.response = some ⟨.ok, 0⟩

/-- APSYM refused (R150, R214): with ERR set or CODE STOP only ERR is written. -/
def Obligations.ApsymRefusedSetsOnlyErr : Prop :=
  ∀ (sym : BitVec 7) (s : State), sym.toNat ≤ 106 → s.err = true ∨ s.code = .stop →
    exec (.apsym sym) s = .next { s with err := true, response := some ⟨.ok, 0⟩ }

/-- CHCODE (R152 to R154): the equality test first; then the illegal transitions, which set ERR alone; then the START or
switch symbol, emitted as APSYM emits it, and CODE moves whether or not the symbol was accepted. -/
def Obligations.ChcodeFollowsStateMachine : Prop :=
  ∀ (t : CodeSet) (s : State),
    (t = s.code → exec (.chcode t) s = .next { s with response := some ⟨.ok, 0⟩ }) ∧
    (t ≠ s.code → s.code = .stop ∨ t = .none ∨ t = .stop →
      exec (.chcode t) s = .next { s with err := true, response := some ⟨.ok, 0⟩ }) ∧
    ∀ (from0 : Bool) (n : BitVec 7),
      (from0, t, n) ∈ [(true, CodeSet.a, 103#7), (true, CodeSet.b, 104#7), (true, CodeSet.c, 105#7),
        (false, CodeSet.a, 101#7), (false, CodeSet.b, 100#7), (false, CodeSet.c, 99#7)] →
      from0 = decide (s.code = .none) → t ≠ s.code → s.code ≠ .stop →
      ∃ u, exec (.apsym n) s = .next u ∧ exec (.chcode t) s = .next { u with code := t }

/-- CHCODE by itself on each legal transition with ERR clear (R152 to R154): the symbol's modules are offered to the
sink, one symbol is counted, and CODE moves, whether or not the modules all fit. -/
def Obligations.ChcodeEmitsTransitionSymbol : Prop :=
  ∀ (t : CodeSet) (c : Nat) (s : State), t ≠ s.code → transitionSym s.code t = some c → s.err = false →
    s.buf.wf = true →
    ∃ u, exec (.chcode t) s = .next u ∧ u.code = t ∧ u.cursor = s.cursorAfter 11 ∧ u.err = s.errAfter 11 ∧
      Stored u s.cursor u.cursor (symModules c) ∧ u.nsym = s.nsym + 1 ∧
      u.chk.val = (s.chk.val + max s.nsym 1 * c) % 103 ∧
      BufKept s.cursor u.cursor s u ∧ HostKept s u ∧ u.txtpos = s.txtpos ∧ u.response = some ⟨.ok, 0⟩

/-- The classification of R155, and that the literal `B_REQ_LO` has no effect from 0x20 to 0x80 (U1, decision D13). -/
def Obligations.TargetOfByte : Prop :=
  ∀ (b : Byte) (lo : Nat), b.toNat ≤ 0x7F → 0x20 ≤ lo → lo ≤ 0x80 →
    target lo b .a = .a ∧ target lo b .b = .b ∧ target lo b .c = .c ∧
    target lo b .auto = (if b.toNat ≤ 0x1F then .a else .b)

/-- The compaction test in the equivalent form of R157. -/
def Obligations.CompactionTest : Prop :=
  ∀ (txt : Memory) (len p : Nat) (fix : Fix) (code : CodeSet), p < len →
    (compactAt txt len p fix code = true ↔
      isDigit (some (txt.read p)) = true ∧
      (p + 1 < len ∧ isDigit (some (txt.read (p + 1))) = true) ∧
      fix = .auto ∧
      ((p + 2 < len ∧ isDigit (some (txt.read (p + 2))) = true) ∧
        (p + 3 < len ∧ isDigit (some (txt.read (p + 3))) = true) ∨
        code = .none ∨ code = .c ∨ code = .stop))

/-- One byte of APPEND (R156, R158): the unencodable byte, the compacted pair, the single character. -/
def Obligations.ByteStepOrder : Prop :=
  ∀ (o : BitOrder) (fix : Fix) (len : Nat) (s : State), s.pos < len →
    (0x80 ≤ (s.txt.read s.pos).toNat →
      byteStep o fix len s = { s with err := true, txtpos := some (s.pos + 1) }) ∧
    ((s.txt.read s.pos).toNat < 0x80 → compactAt s.txt len s.pos fix s.code = true →
      s.pos + 2 ≤ len ∧ isDigit (some (s.txt.read (s.pos + 1))) = true ∧
      byteStep o fix len s =
        { appendSymbol o (10 * ((s.txt.read s.pos).toNat - 0x30) + ((s.txt.read (s.pos + 1)).toNat - 0x30))
            (changeCode o .c s) with txtpos := some (s.pos + 2) }) ∧
    ((s.txt.read s.pos).toNat < 0x80 → compactAt s.txt len s.pos fix s.code = false →
      byteStep o fix len s =
        { appendSymbol o
            (if (s.txt.read s.pos).toNat ≤ 0x1F then (s.txt.read s.pos).toNat + 64
              else (s.txt.read s.pos).toNat - 32)
            (changeCode o (target 0x27 (s.txt.read s.pos) fix) s) with txtpos := some (s.pos + 1) })

/-- APPEND with LEN 0 changes nothing but the response, and leaves TXTPOS without a value (R159 a). -/
def Obligations.AppendOfNothing : Prop :=
  ∀ (fix : Fix) (s : State),
    exec (.append fix 0) s = .next { s with txtpos := none, response := some ⟨.ok, 0⟩ }

/-- APPEND (R155 to R159): on encodable bytes, with ERR clear and CODE not STOP, it offers to the sink the modules of
exactly the symbols that the text stands for from the current code set on, and ends in their code set; NSYM counts and
CHK folds in the symbols accepted, which are all of them if they fit, and else those up to the one that overflowed;
everything else stays. -/
def Obligations.AppendEmitsTextSymbols : Prop :=
  ∀ (fix : Fix) (len : BitVec 16) (s : State), encodable (s.text len.toNat) → s.err = false → s.code ≠ .stop →
    s.buf.wf = true →
    ∃ t, exec (.append fix len) s = .next t ∧
      t.cursor = s.cursorAfter (11 * (textSymbols fix s.code (s.text len.toNat)).length) ∧
      t.err = s.errAfter (11 * (textSymbols fix s.code (s.text len.toNat)).length) ∧
      Stored t s.cursor t.cursor (symbolModules (textSymbols fix s.code (s.text len.toNat))) ∧
      t.nsym = s.nsym + s.accepts (textSymbols fix s.code (s.text len.toNat)).length ∧
      t.chk.val = (s.chk.val + weightedFrom s.nsym ((textSymbols fix s.code (s.text len.toNat)).take
        (s.accepts (textSymbols fix s.code (s.text len.toNat)).length))) % 103 ∧
      (t.err = false → s.accepts (textSymbols fix s.code (s.text len.toNat)).length =
        (textSymbols fix s.code (s.text len.toNat)).length) ∧
      t.code = textCode fix s.code (s.text len.toNat) ∧
      BufKept s.cursor t.cursor s t ∧ HostKept s t ∧ t.txtpos = none ∧ t.response = some ⟨.ok, 0⟩

/-- The first unencodable byte of a text ends its output (R156, R159 d, R212): the bits, CURSOR, CHK and NSYM are those
of an APPEND of the bytes before it, and ERR is set. -/
def Obligations.UnencodableByteEndsOutput : Prop :=
  ∀ (fix : Fix) (len k : BitVec 16) (s u : State), k.toNat < len.toNat → encodable (s.text k.toNat) →
    0x80 ≤ (s.txt.read k.toNat).toNat → exec (.append fix k) s = .next u →
    ∃ t, exec (.append fix len) s = .next t ∧ t.err = true ∧ t.buf = u.buf ∧ t.cursor = u.cursor ∧
      t.chk = u.chk ∧ t.nsym = u.nsym

/-- FINAL from a code set other than STOP with ERR clear (R160, R161): the check symbol and STOP are offered to the sink,
after START-B when the code set is NONE; NSYM counts and CHK folds in those accepted, up to the one that overflowed;
CODE ends in STOP in every case. From a started run with `n` symbols and check value `k`, when they all fit,
`CHK = (k + n * k + (n + 1) * 106) mod 103`. -/
def Obligations.FinalClosesRun : Prop :=
  ∀ s : State, s.err = false → s.buf.wf = true →
    (s.code = .a ∨ s.code = .b ∨ s.code = .c →
      ∃ t, exec .final s = .next t ∧ t.code = .stop ∧ t.cursor = s.cursorAfter 24 ∧ t.err = s.errAfter 24 ∧
        Stored t s.cursor t.cursor (symbolModules [s.chk.val, 106]) ∧
        t.nsym = s.nsym + s.accepts 2 ∧
        t.chk.val = (s.chk.val + weightedFrom s.nsym ([s.chk.val, 106].take (s.accepts 2))) % 103 ∧
        (t.err = false → t.nsym = s.nsym + 2 ∧
          t.chk.val = (s.chk.val + max s.nsym 1 * s.chk.val + (s.nsym + 1) * 106) % 103) ∧
        BufKept s.cursor t.cursor s t ∧ HostKept s t ∧ t.txtpos = s.txtpos ∧ t.response = some ⟨.ok, 0⟩) ∧
    (s.code = .none →
      ∃ t k, exec .final s = .next t ∧ k = (s.chk.val + max s.nsym 1 * 104) % 103 ∧ t.code = .stop ∧
        t.cursor = s.cursorAfter 35 ∧ t.err = s.errAfter 35 ∧
        Stored t s.cursor t.cursor (symbolModules [104, k, 106]) ∧
        t.nsym = s.nsym + s.accepts 3 ∧
        t.chk.val = (s.chk.val + weightedFrom s.nsym ([104, k, 106].take (s.accepts 3))) % 103 ∧
        (t.err = false → t.nsym = s.nsym + 3 ∧
          t.chk.val = (k + (s.nsym + 1) * k + (s.nsym + 2) * 106) % 103) ∧
        BufKept s.cursor t.cursor s t ∧ HostKept s t ∧ t.txtpos = s.txtpos ∧ t.response = some ⟨.ok, 0⟩)

/-- FINAL in STOP does nothing; with ERR set it emits nothing and only moves CODE to STOP (R160, R161). -/
def Obligations.FinalIdempotentAndSafeAfterError : Prop :=
  ∀ s : State,
    (s.code = .stop → exec .final s = .next { s with response := some ⟨.ok, 0⟩ }) ∧
    (s.code ≠ .stop → s.err = true → exec .final s = .next { s with code := .stop, response := some ⟨.ok, 0⟩ })

/-- R164: with ERR set the encoder's commands store no module and change neither CHK nor NSYM; in STOP they change only
ERR, and FINAL nothing at all. -/
def Obligations.InertEncoder : Prop :=
  ∀ (i : Instr) (s t : State), encoderCommand i = true → s.txtpos = none → exec i s = .next t →
    (s.err = true → t = { s with code := t.code, response := t.response }) ∧
    (s.code = .stop → t = { s with err := t.err, response := t.response }) ∧
    (s.code = .stop → i = .final → t = { s with response := t.response })

/-- R162, the checksum law, over a run of APSYM command words issued one after the other in a fresh run with room:
`NSYM = n` and `CHK` is the weighted sum mod 103. -/
def Obligations.ChecksumLaw : Prop :=
  ∀ (syms : List (BitVec 7)) (s : State), (∀ c ∈ syms, c.toNat ≤ 106) → s.code ≠ .stop → s.err = false →
    s.nsym = 0 → s.chk = 0 → s.cursor + 13 * syms.length ≤ 8 * s.cap →
    s.agenda = syms.map (fun c => HostMove.command (encode (.apsym c))) →
    ∃ t, core.run syms.length s = .next t ∧ t.nsym = syms.length ∧ t.err = false ∧ t.agenda = [] ∧
      t.chk.val = weightedFrom 0 (syms.map BitVec.toNat) % 103

/-! ### ENCODE -/

/-- ENCODE completes in every state (R192): CODE is STOP, the response is CURSOR, CAP and TXT are kept, TXTPOS has no
value. -/
def Obligations.EncodeAlwaysEndsInStop : Prop :=
  ∀ (fix : Fix) (qz : BitVec 8) (len : BitVec 16) (s : State),
    ∃ t, exec (.encode fix qz len) s = .next t ∧ t.code = .stop ∧
      t.response = some ⟨.ok, BitVec.ofNat 32 t.cursor⟩ ∧ HostKept s t ∧ t.txtpos = none ∧ t.cursor ≤ 8 * t.cap

/-- ENCODE on encodable bytes with room (R192, R163): BUF holds the quiet zone, the START symbol, the text's symbols,
the check symbol and STOP, and the quiet zone again; every other bit of BUF stays. -/
def Obligations.EncodeWritesBarcode : Prop :=
  ∀ (fix : Fix) (qz : BitVec 8) (len : BitVec 16) (s : State), encodable (s.text len.toNat) → s.buf.wf = true →
    modulesFor (runSymbols fix (s.text len.toNat)).length qz.toNat ≤ 8 * s.cap →
    ∃ t, exec (.encode fix qz len) s = .next t ∧ t.err = false ∧ t.code = .stop ∧
      t.cursor = modulesFor (runSymbols fix (s.text len.toNat)).length qz.toNat ∧
      (runModules fix qz.toNat (s.text len.toNat)).length = t.cursor ∧
      Stored t 0 t.cursor (runModules fix qz.toNat (s.text len.toNat)) ∧
      t.nsym = (runSymbols fix (s.text len.toNat)).length ∧
      t.chk.val = weightedFrom 0 (runSymbols fix (s.text len.toNat)) % 103 ∧
      BufKept 0 t.cursor s t ∧ t.response = some ⟨.ok, BitVec.ofNat 32 t.cursor⟩

/-- ENCODE into a buffer that is too small (R199): ERR set, the response stalls at `8 * CAP`, the bytes below CAP hold
the first `8 * CAP` modules of the unlimited output, and nothing else is touched; NSYM counts and CHK folds in the
symbols accepted (R150): none if the leading quiet zone overflowed, else those up to the one that overflowed. -/
def Obligations.EncodeOverflowWritesPrefix : Prop :=
  ∀ (fix : Fix) (qz : BitVec 8) (len : BitVec 16) (s : State), encodable (s.text len.toNat) → s.buf.wf = true →
    8 * s.cap < modulesFor (runSymbols fix (s.text len.toNat)).length qz.toNat →
    ∃ t, exec (.encode fix qz len) s = .next t ∧ t.err = true ∧ t.code = .stop ∧ t.cursor = 8 * s.cap ∧
      t.response = some ⟨.ok, BitVec.ofNat 32 (8 * s.cap)⟩ ∧
      Stored t 0 (8 * s.cap) (runModules fix qz.toNat (s.text len.toNat)) ∧
      t.nsym = (if 8 * s.cap < qz.toNat then 0
        else State.accepts { s with cursor := qz.toNat } (runSymbols fix (s.text len.toNat)).length) ∧
      t.chk.val = weightedFrom 0 ((runSymbols fix (s.text len.toNat)).take t.nsym) % 103 ∧
      ∀ a, s.cap ≤ a → t.buf.read a = s.buf.read a

/-- R196: ENCODE leaves the same state and gives the same response as INIT with the current CAP, QUIET, APPEND, FINAL,
QUIET, RDREG CURSOR. -/
def Obligations.EncodeEqualsItsSequence : Prop :=
  ∀ (fix : Fix) (qz : BitVec 8) (len : BitVec 16) (s : State), s.cap < 2 ^ 24 →
    ∃ t1 t2 t3 t4 t5 t6,
      exec (.init (BitVec.ofNat 24 s.cap)) s = .next t1 ∧
      exec (.quiet (qz.setWidth 16)) t1 = .next t2 ∧
      exec (.append fix len) t2 = .next t3 ∧
      exec .final t3 = .next t4 ∧
      exec (.quiet (qz.setWidth 16)) t4 = .next t5 ∧
      exec (.rdreg .cursor) t5 = .next t6 ∧
      exec (.encode fix qz len) s = .next t6

/-- The module count of an ENCODE (R194): `11 * NSYM + 2 + 2 * QZ` without error; with ERR set and the buffer not full,
`11 * NSYM + 2 * QZ`; with ERR set on encodable text, `8 * CAP`. -/
def Obligations.EncodeModuleCount : Prop :=
  ∀ (fix : Fix) (qz : BitVec 8) (len : BitVec 16) (s t : State), exec (.encode fix qz len) s = .next t →
    (t.err = false → t.cursor = 11 * t.nsym + 2 + 2 * qz.toNat) ∧
    (t.err = true → t.cursor < 8 * s.cap → t.cursor = 11 * t.nsym + 2 * qz.toNat) ∧
    (t.err = true → encodable (s.text len.toNat) → t.cursor = 8 * s.cap)

/-- The quiet zones of an ENCODE without error (R197): QZ light modules at both ends, and the first and the last symbol
module dark. -/
def Obligations.QuietZonesAtBothEnds : Prop :=
  ∀ (fix : Fix) (qz : BitVec 8) (len : BitVec 16) (s t : State), s.buf.wf = true →
    exec (.encode fix qz len) s = .next t → t.err = false →
    (∀ j, j < qz.toNat → readModule Config.bitOrder t.buf j = true) ∧
    (∀ j, t.cursor - qz.toNat ≤ j → j < t.cursor → readModule Config.bitOrder t.buf j = true) ∧
    readModule Config.bitOrder t.buf qz.toNat = false ∧
    readModule Config.bitOrder t.buf (t.cursor - qz.toNat - 1) = false

/-- The source's two worked encodes (R198): the empty string, and the single character 0x41, with ample room. -/
def Obligations.WorkedExamples : Prop :=
  runSymbols .auto [] = [104, 1, 106] ∧ runSymbols .auto [0x41] = [104, 33, 34, 106] ∧
  (∃ t, exec (.encode .auto 0 0) { State.reset with cap := 8 } = .next t ∧
    t.cursor = 35 ∧ t.nsym = 3 ∧ t.err = false ∧ t.response = some ⟨.ok, 35⟩) ∧
  ∃ t, exec (.encode .auto 0 1) { State.reset with cap := 8, txt := [(0, 0x41)] } = .next t ∧
    t.cursor = 46 ∧ t.nsym = 4 ∧ t.err = false ∧ t.response = some ⟨.ok, 46⟩

/-- The source's round-trip property (R116, R163): the module stream of an ENCODE without error, stripped of its quiet
zones, parses back to the symbols of the run, of which the last two are the check symbol and STOP. -/
def Obligations.EncodedStreamParsesBack : Prop :=
  ∀ (fix : Fix) (qz : BitVec 8) (len : BitVec 16) (s t : State), s.buf.wf = true →
    exec (.encode fix qz len) s = .next t → t.err = false →
    ∃ body k, bodySymbols fix (s.text len.toNat) = body ∧ k = weightedFrom 0 body % 103 ∧
      parseStream t.nsym ((List.range' qz.toNat (t.cursor - 2 * qz.toNat)).map
        (readModule Config.bitOrder t.buf)) = some (body ++ [k, 106])

/-- The safe capacity of R200: with `CAP >= Bytes(2 * N + 3, q)` an ENCODE of `N` encodable bytes never errs. -/
def Obligations.SafeCapacityNeverOverflows : Prop :=
  ∀ (fix : Fix) (qz : BitVec 8) (len : BitVec 16) (s t : State), encodable (s.text len.toNat) →
    bytesFor (2 * len.toNat + 3) qz.toNat ≤ s.cap → exec (.encode fix qz len) s = .next t → t.err = false

/-- The growth of NSYM (R33): at most `2 * LEN` in an APPEND, at most `2 * LEN + 3` in an ENCODE; and a text of at least
one byte takes at most `2 * LEN + 2` symbols in an ENCODE (R200). -/
def Obligations.SymbolCountBounds : Prop :=
  ∀ (fix : Fix) (qz : BitVec 8) (len : BitVec 16) (s t u : State),
    exec (.append fix len) s = .next t → exec (.encode fix qz len) s = .next u →
    t.nsym ≤ s.nsym + 2 * len.toNat ∧ u.nsym ≤ 2 * len.toNat + 3 ∧
    (1 ≤ len.toNat → u.nsym ≤ 2 * len.toNat + 2)

/-- The symbol counts of R200 for `N` digits under AUTO. -/
def Obligations.DigitRunSymbolCount : Prop :=
  ∀ bytes : List Byte, (∀ b ∈ bytes, isDigit (some b) = true) →
    (bytes = [] → (runSymbols .auto bytes).length = 3) ∧
    (bytes.length = 1 → (runSymbols .auto bytes).length = 4) ∧
    (2 ≤ bytes.length → bytes.length % 2 = 0 → (runSymbols .auto bytes).length = bytes.length / 2 + 3) ∧
    (3 ≤ bytes.length → bytes.length % 2 = 1 → (runSymbols .auto bytes).length = (bytes.length - 1) / 2 + 5)

/-! ### Whole-machine rules -/

/-- No command aborts (R210): `exec` answers a next state and a response for every command in every state. -/
def Obligations.CommandsNeverAbort : Prop :=
  ∀ (i : Instr) (s : State), ∃ t r, exec i s = .next t ∧ t.response = some r

/-- The frame every command keeps (R26, R29, R59): TXT and the host's pending moves, CAP but for INIT; and RDREG and RDMOD
change nothing but the response. -/
def Obligations.CommandFrames : Prop :=
  ∀ (i : Instr) (s t : State), exec i s = .next t →
    t.txt = s.txt ∧ t.agenda = s.agenda ∧ ((∀ cap, i ≠ .init cap) → t.cap = s.cap) ∧
    (s.txtpos = none → t.txtpos = none) ∧
    ((∃ r, i = .rdreg r) ∨ (∃ idx, i = .rdmod idx) → t = { s with response := t.response })

/-- Registers and responses never depend on what BUF held (R195, U5), RDMOD apart, which returns it. -/
def Obligations.BufferNeverSteersRegisters : Prop :=
  ∀ (i : Instr) (s t : State) (m : Memory), (∀ idx, i ≠ .rdmod idx) → exec i s = .next t →
    ∃ b, exec i { s with buf := m } = .next { t with buf := b }

/-- The bit order changes neither the registers that a procedure of the block leaves nor the sequence of the modules it
stores, only where the bits stand (R51, R195); for ENCODE, from module 0 on. -/
def Obligations.BitOrderMovesOnlyBits : Prop :=
  (∀ p w : Nat, SameModules (fun o => writeModules o p w)) ∧
  (∀ n : Nat, SameModules (fun o => quiet o n)) ∧
  (∀ c : Nat, SameModules (fun o => appendSymbol o c)) ∧
  (∀ t : CodeSet, SameModules (fun o => changeCode o t)) ∧
  (∀ (fix : Fix) (len : Nat), SameModules (fun o => append o fix len)) ∧
  SameModules finalize ∧
  ∀ (fix : Fix) (qz len : Nat) (s : State), s.buf.wf = true →
    ∃ b, encodeRun .lsbFirst fix qz len s = { encodeRun .msbFirst fix qz len s with buf := b } ∧
      ∀ j, j < (encodeRun .msbFirst fix qz len s).cursor →
        readModule .lsbFirst b j = readModule .msbFirst (encodeRun .msbFirst fix qz len s).buf j

/-- TXT is read by APPEND and ENCODE only, below LEN only (R50, R57): any other contents of TXT that agree below LEN
give the same result. -/
def Obligations.TextReadOnlyBelowLen : Prop :=
  ∀ (i : Instr) (s t : State) (m : Memory), exec i s = .next t →
    (∀ fix len, i = .append fix len → ∀ a, a < len.toNat → m.read a = s.txt.read a) →
    (∀ fix qz len, i = .encode fix qz len → ∀ a, a < len.toNat → m.read a = s.txt.read a) →
    exec i { s with txt := m } = .next { t with txt := m }

/-! ### The Symbol Table -/

/-- R114: 107 entries; widths that sum to 11, or 13 for STOP, six of them, or seven; each between 1 and 4; pairwise
distinct, so that the module pattern identifies the symbol; and an even sum of the bar widths in entries 0 to 105. -/
def Obligations.SymbolTableStructure : Prop :=
  symTable.length = 107 ∧
  (∀ c < 106, (symWidths c).length = 6 ∧ (symWidths c).sum = 11) ∧
  ((symWidths 106).length = 7 ∧ (symWidths 106).sum = 13) ∧
  (∀ c < 107, ∀ e ∈ symWidths c, 1 ≤ e ∧ e ≤ 4) ∧
  (∀ c < 107, ∀ d < 107, symWidths c = symWidths d → c = d) ∧
  (∀ c < 107, ∀ d < 107, symModules c = symModules d → c = d) ∧
  ∀ c < 106, ((symWidths c).getD 0 0 + (symWidths c).getD 2 0 + (symWidths c).getD 4 0) % 2 = 0

/-- R110 and R113: the modules of each entry are its widths in order, the first a bar and then alternating; its width;
its pattern word as the number those modules write, most significant first, and bit by bit; and the colours of its first
and last module. -/
def Obligations.PatternWordsFromWidths : Prop :=
  ∀ c < 107,
    symModules c = (List.range (symWidths c).length).flatMap
      (fun j => List.replicate ((symWidths c).getD j 0) (decide (j % 2 = 1))) ∧
    (symModules c).length = (symRom c).width ∧
    (symRom c).width = (if c = 106 then 13 else 11) ∧
    (symRom c).pat = ((List.range (symRom c).width).map
      (fun k => ((symModules c).getD k false).toNat * 2 ^ ((symRom c).width - 1 - k))).sum ∧
    (∀ k < (symRom c).width, (symModules c)[k]? = some ((symRom c).pat.testBit ((symRom c).width - 1 - k))) ∧
    (symRom c).pat.testBit ((symRom c).width - 1) = false ∧
    (symRom c).pat.testBit 0 = decide (c ≠ 106)

/-- The inverse lookup parses any stream of whole symbols that ends with STOP (R116). -/
def Obligations.SymbolStreamsParseUniquely : Prop :=
  ∀ syms : List Nat, (∀ c ∈ syms, c ≤ 105) →
    parseStream (syms.length + 1) (symbolModules (syms ++ [106])) = some (syms ++ [106])

/-- What a barcode says (R115, U2): under AUTO, the symbols of any encodable text read back, code set by code set, as
exactly that text. -/
def Obligations.SymbolsReadAsText : Prop :=
  ∀ bytes : List Byte, encodable bytes → readText .none (bodySymbols .auto bytes) = bytes

/-- WRSYM writes the bars of a symbol, and neither counts it nor folds it into the checksum (R102). -/
def Obligations.WrsymWritesBarsOnly : Prop :=
  ∀ (c : Nat) (s : State), c ≤ 106 → s.buf.wf = true →
    ∃ t, exec (Pseudo.wrsym c).expansion s = .next t ∧
      t.cursor = s.cursorAfter (if c = 106 then 13 else 11) ∧
      t.err = s.errAfter (if c = 106 then 13 else 11) ∧
      Stored t s.cursor t.cursor (symModules c) ∧ EncoderKept s t

/-! ### Responses and pseudo-instructions -/

/-- R90: the response codes in two bits; every command gives one response, of value CURSOR for ENCODE, the register for
RDREG, the module for RDMOD, and 0 for every other command and for every refusal, that of an illegal word included. -/
def Obligations.EveryCommandResponds : Prop :=
  (RespCode.ok.number = 0#2 ∧ RespCode.illegal.number = 1#2 ∧ RespCode.range.number = 2#2) ∧
  (∀ (i : Instr) (s t : State), exec i s = .next t →
    ∃ r, t.response = some r ∧ (r.code ≠ .ok → r.val = 0) ∧
      (∀ fix qz len, i = .encode fix qz len → r = ⟨.ok, BitVec.ofNat 32 t.cursor⟩) ∧
      (∀ reg, i = .rdreg reg → r = ⟨.ok, BitVec.ofNat 32 (s.regView reg)⟩) ∧
      (∀ idx, i = .rdmod idx → r.code = .ok →
        r.val = if readModule Config.bitOrder s.buf idx.toNat = true then 1 else 0) ∧
      ((∀ fix qz len, i ≠ .encode fix qz len) → (∀ reg, i ≠ .rdreg reg) → (∀ idx, i ≠ .rdmod idx) → r.val = 0)) ∧
  ∀ (s : State) (w : Word) (e : DecodeError) (ms : List HostMove), s.agenda = .command w :: ms →
    decode w = .error e → ∃ t, step s = .next t ∧ t.response = some ⟨.illegal, 0⟩

/-- RDLEN yields CURSOR, RDSTAT the STATUS word and RDERR the error flag, which is bit 0 of it (R102, R31); none changes
anything but the response. -/
def Obligations.PseudoReadsYieldRegisters : Prop :=
  ∀ s : State,
    (∃ v, exec Pseudo.rdlen.expansion s = .next { s with response := some ⟨.ok, v⟩ } ∧
      Pseudo.rdlen.result v = BitVec.ofNat 32 s.cursor) ∧
    (∃ v, exec Pseudo.rdstat.expansion s = .next { s with response := some ⟨.ok, v⟩ } ∧
      Pseudo.rdstat.result v = BitVec.ofNat 32 s.statusWord) ∧
    ∃ v, exec Pseudo.rderr.expansion s = .next { s with response := some ⟨.ok, v⟩ } ∧
      Pseudo.rderr.result v = if s.err = true then 1 else 0
end

