-- ==== Sys2Proof/Laws/Decode.lean ====
section
/-! SUPPORT. The fields of a command word as numbers, and what the field decoders accept (R7, R81, R84). -/

namespace Sys2Proof

/-- A field is a quotient and a remainder of the word (R7). -/
theorem field_toNat (w : Word) (lo len : Nat) : (field w lo len).toNat = w.toNat / 2 ^ lo % 2 ^ len := by
  simp [field, BitVec.extractLsb'_toNat, Nat.shiftRight_eq_div_pow]

/-- A field equals a bit vector when the numbers agree. -/
theorem field_eq_iff (w : Word) (lo len : Nat) (v : BitVec len) :
    field w lo len = v ↔ w.toNat / 2 ^ lo % 2 ^ len = v.toNat := by
  rw [← BitVec.toNat_inj, field_toNat]

theorem reservedClear_iff (w : Word) (lo len : Nat) :
    reservedClear w lo len = true ↔ w.toNat / 2 ^ lo % 2 ^ len = 0 := by
  unfold reservedClear
  rw [decide_eq_true_eq, field_eq_iff]
  simp

/-- The opcode is the top nibble (R80). -/
theorem opc_toNat (w : Word) : (opc w).toNat = w.toNat / 2 ^ 28 := by
  have := w.isLt
  rw [opc, field_toNat]
  omega

theorem opc_eq_iff (w : Word) (v : BitVec 4) : opc w = v ↔ w.toNat / 2 ^ 28 = v.toNat := by
  rw [← BitVec.toNat_inj, opc_toNat]

theorem Fix.number_lt (f : Fix) : f.number < 4 := by cases f <;> decide

theorem CodeSet.number_lt (t : CodeSet) : t.number < 5 := by cases t <;> decide

theorem RegSel.number_lt (r : RegSel) : r.number < 4 := by cases r <;> decide

/-- The `FIX` decoder and the `FIX` numbers agree (R84). -/
theorem Fix.ofField_ok_iff (v : BitVec 3) (f : Fix) : Fix.ofField v = .ok f ↔ v.toNat = f.number := by
  unfold Fix.ofField
  split_ifs <;> cases f <;> simp_all [Fix.number]

/-- The `TGT` decoder and the code set numbers agree (R21, R84). -/
theorem CodeSet.ofField_ok_iff (v : BitVec 3) (t : CodeSet) : CodeSet.ofField v = .ok t ↔ v.toNat = t.number := by
  unfold CodeSet.ofField
  split_ifs <;> cases t <;> simp_all [CodeSet.number]

/-- The `REG` decoder and the register numbers agree (R31, R84). -/
theorem RegSel.ofField_ok_iff (v : BitVec 3) (r : RegSel) : RegSel.ofField v = .ok r ↔ v.toNat = r.number := by
  unfold RegSel.ofField
  split_ifs <;> cases r <;> simp_all [RegSel.number]

theorem Fix.ofField_error_iff (v : BitVec 3) : (∃ e, Fix.ofField v = .error e) ↔ 3 < v.toNat := by
  unfold Fix.ofField
  split_ifs <;> simp <;> omega

theorem CodeSet.ofField_error_iff (v : BitVec 3) : (∃ e, CodeSet.ofField v = .error e) ↔ 4 < v.toNat := by
  unfold CodeSet.ofField
  split_ifs <;> simp <;> omega

theorem RegSel.ofField_error_iff (v : BitVec 3) : (∃ e, RegSel.ofField v = .error e) ↔ 3 < v.toNat := by
  unfold RegSel.ofField
  split_ifs <;> simp <;> omega

/-- The number of a command word (R101). -/
def encodeNat : Instr → Nat
  | .init cap => 0x10000000 + cap.toNat
  | .wrmod pat width => 0x20000000 + width.toNat * 0x10000 + pat.toNat
  | .quiet n => 0x30000000 + n.toNat
  | .chcode tgt => 0x40000000 + tgt.number
  | .apsym sym => 0x50000000 + sym.toNat
  | .append fix len => 0x60000000 + fix.number * 0x1000000 + len.toNat
  | .final => 0x70000000
  | .encode fix qz len => 0x80000000 + fix.number * 0x1000000 + qz.toNat * 0x10000 + len.toNat
  | .rdreg reg => 0x90000000 + reg.number
  | .rdmod idx => 0xA0000000 + idx.toNat

theorem encode_eq (i : Instr) : encode i = BitVec.ofNat 32 (encodeNat i) := by cases i <;> rfl

theorem encodeNat_lt (i : Instr) : encodeNat i < 2 ^ 32 := by
  cases i with
  | init cap => have := cap.isLt; simp only [encodeNat]; omega
  | wrmod pat width => have := pat.isLt; have := width.isLt; simp only [encodeNat]; omega
  | quiet n => have := n.isLt; simp only [encodeNat]; omega
  | chcode tgt => have := tgt.number_lt; simp only [encodeNat]; omega
  | apsym sym => have := sym.isLt; simp only [encodeNat]; omega
  | append fix len => have := fix.number_lt; have := len.isLt; simp only [encodeNat]; omega
  | final => decide
  | encode fix qz len => have := fix.number_lt; have := qz.isLt; have := len.isLt; simp only [encodeNat]; omega
  | rdreg reg => have := reg.number_lt; simp only [encodeNat]; omega
  | rdmod idx => have := idx.isLt; simp only [encodeNat]; omega

/-- The word of a command as a number, with no carry out of its 32 bits (R101). -/
theorem encode_toNat (i : Instr) : (encode i).toNat = encodeNat i := by
  rw [encode_eq, BitVec.toNat_ofNat, Nat.mod_eq_of_lt (encodeNat_lt i)]

end Sys2Proof
end

