-- ==== Sys2Proof/Laws/State.lean ====
section
/-! SUPPORT. One lemma per field per register update, each by rfl, so that no later proof unfolds a record update. -/

namespace Sys2Proof.Machine

variable (s : State)

@[simp] theorem State.flagErr_code : s.flagErr.code = s.code := rfl
@[simp] theorem State.flagErr_chk : s.flagErr.chk = s.chk := rfl
@[simp] theorem State.flagErr_nsym : s.flagErr.nsym = s.nsym := rfl
@[simp] theorem State.flagErr_err : s.flagErr.err = true := rfl
@[simp] theorem State.flagErr_cursor : s.flagErr.cursor = s.cursor := rfl
@[simp] theorem State.flagErr_cap : s.flagErr.cap = s.cap := rfl
@[simp] theorem State.flagErr_txtpos : s.flagErr.txtpos = s.txtpos := rfl
@[simp] theorem State.flagErr_buf : s.flagErr.buf = s.buf := rfl
@[simp] theorem State.flagErr_txt : s.flagErr.txt = s.txt := rfl
@[simp] theorem State.flagErr_response : s.flagErr.response = s.response := rfl
@[simp] theorem State.flagErr_agenda : s.flagErr.agenda = s.agenda := rfl

@[simp] theorem State.runReset_code : s.runReset.code = .none := rfl
@[simp] theorem State.runReset_chk : s.runReset.chk = 0 := rfl
@[simp] theorem State.runReset_nsym : s.runReset.nsym = 0 := rfl
@[simp] theorem State.runReset_err : s.runReset.err = false := rfl
@[simp] theorem State.runReset_cursor : s.runReset.cursor = 0 := rfl
@[simp] theorem State.runReset_cap : s.runReset.cap = s.cap := rfl
@[simp] theorem State.runReset_txtpos : s.runReset.txtpos = s.txtpos := rfl
@[simp] theorem State.runReset_buf : s.runReset.buf = s.buf := rfl
@[simp] theorem State.runReset_txt : s.runReset.txt = s.txt := rfl
@[simp] theorem State.runReset_response : s.runReset.response = s.response := rfl
@[simp] theorem State.runReset_agenda : s.runReset.agenda = s.agenda := rfl

@[simp] theorem State.hardReset_code : s.hardReset.code = .none := rfl
@[simp] theorem State.hardReset_chk : s.hardReset.chk = 0 := rfl
@[simp] theorem State.hardReset_nsym : s.hardReset.nsym = 0 := rfl
@[simp] theorem State.hardReset_err : s.hardReset.err = false := rfl
@[simp] theorem State.hardReset_cursor : s.hardReset.cursor = 0 := rfl
@[simp] theorem State.hardReset_cap : s.hardReset.cap = 0 := rfl
@[simp] theorem State.hardReset_txtpos : s.hardReset.txtpos = none := rfl
@[simp] theorem State.hardReset_buf : s.hardReset.buf = s.buf := rfl
@[simp] theorem State.hardReset_txt : s.hardReset.txt = s.txt := rfl
@[simp] theorem State.hardReset_response : s.hardReset.response = none := rfl
@[simp] theorem State.hardReset_agenda : s.hardReset.agenda = s.agenda := rfl

@[simp] theorem State.setCap_code (v : Nat) : (s.setCap v).code = s.code := rfl
@[simp] theorem State.setCap_chk (v : Nat) : (s.setCap v).chk = s.chk := rfl
@[simp] theorem State.setCap_nsym (v : Nat) : (s.setCap v).nsym = s.nsym := rfl
@[simp] theorem State.setCap_err (v : Nat) : (s.setCap v).err = s.err := rfl
@[simp] theorem State.setCap_cursor (v : Nat) : (s.setCap v).cursor = s.cursor := rfl
@[simp] theorem State.setCap_cap (v : Nat) : (s.setCap v).cap = v := rfl
@[simp] theorem State.setCap_txtpos (v : Nat) : (s.setCap v).txtpos = s.txtpos := rfl
@[simp] theorem State.setCap_buf (v : Nat) : (s.setCap v).buf = s.buf := rfl
@[simp] theorem State.setCap_txt (v : Nat) : (s.setCap v).txt = s.txt := rfl
@[simp] theorem State.setCap_response (v : Nat) : (s.setCap v).response = s.response := rfl
@[simp] theorem State.setCap_agenda (v : Nat) : (s.setCap v).agenda = s.agenda := rfl

@[simp] theorem State.setCode_code (t : CodeSet) : (s.setCode t).code = t := rfl
@[simp] theorem State.setCode_chk (t : CodeSet) : (s.setCode t).chk = s.chk := rfl
@[simp] theorem State.setCode_nsym (t : CodeSet) : (s.setCode t).nsym = s.nsym := rfl
@[simp] theorem State.setCode_err (t : CodeSet) : (s.setCode t).err = s.err := rfl
@[simp] theorem State.setCode_cursor (t : CodeSet) : (s.setCode t).cursor = s.cursor := rfl
@[simp] theorem State.setCode_cap (t : CodeSet) : (s.setCode t).cap = s.cap := rfl
@[simp] theorem State.setCode_txtpos (t : CodeSet) : (s.setCode t).txtpos = s.txtpos := rfl
@[simp] theorem State.setCode_buf (t : CodeSet) : (s.setCode t).buf = s.buf := rfl
@[simp] theorem State.setCode_txt (t : CodeSet) : (s.setCode t).txt = s.txt := rfl
@[simp] theorem State.setCode_response (t : CodeSet) : (s.setCode t).response = s.response := rfl
@[simp] theorem State.setCode_agenda (t : CodeSet) : (s.setCode t).agenda = s.agenda := rfl

@[simp] theorem State.countSymbol_code (c : Nat) : (s.countSymbol c).code = s.code := rfl
@[simp] theorem State.countSymbol_chk (c : Nat) : (s.countSymbol c).chk = Fin.ofNat 103 (s.chk.val + max s.nsym 1 * c) := rfl
@[simp] theorem State.countSymbol_nsym (c : Nat) : (s.countSymbol c).nsym = s.nsym + 1 := rfl
@[simp] theorem State.countSymbol_err (c : Nat) : (s.countSymbol c).err = s.err := rfl
@[simp] theorem State.countSymbol_cursor (c : Nat) : (s.countSymbol c).cursor = s.cursor := rfl
@[simp] theorem State.countSymbol_cap (c : Nat) : (s.countSymbol c).cap = s.cap := rfl
@[simp] theorem State.countSymbol_txtpos (c : Nat) : (s.countSymbol c).txtpos = s.txtpos := rfl
@[simp] theorem State.countSymbol_buf (c : Nat) : (s.countSymbol c).buf = s.buf := rfl
@[simp] theorem State.countSymbol_txt (c : Nat) : (s.countSymbol c).txt = s.txt := rfl
@[simp] theorem State.countSymbol_response (c : Nat) : (s.countSymbol c).response = s.response := rfl
@[simp] theorem State.countSymbol_agenda (c : Nat) : (s.countSymbol c).agenda = s.agenda := rfl

@[simp] theorem State.setPos_code (p : Nat) : (s.setPos p).code = s.code := rfl
@[simp] theorem State.setPos_chk (p : Nat) : (s.setPos p).chk = s.chk := rfl
@[simp] theorem State.setPos_nsym (p : Nat) : (s.setPos p).nsym = s.nsym := rfl
@[simp] theorem State.setPos_err (p : Nat) : (s.setPos p).err = s.err := rfl
@[simp] theorem State.setPos_cursor (p : Nat) : (s.setPos p).cursor = s.cursor := rfl
@[simp] theorem State.setPos_cap (p : Nat) : (s.setPos p).cap = s.cap := rfl
@[simp] theorem State.setPos_txtpos (p : Nat) : (s.setPos p).txtpos = some p := rfl
@[simp] theorem State.setPos_buf (p : Nat) : (s.setPos p).buf = s.buf := rfl
@[simp] theorem State.setPos_txt (p : Nat) : (s.setPos p).txt = s.txt := rfl
@[simp] theorem State.setPos_response (p : Nat) : (s.setPos p).response = s.response := rfl
@[simp] theorem State.setPos_agenda (p : Nat) : (s.setPos p).agenda = s.agenda := rfl

@[simp] theorem State.clearPos_code : s.clearPos.code = s.code := rfl
@[simp] theorem State.clearPos_chk : s.clearPos.chk = s.chk := rfl
@[simp] theorem State.clearPos_nsym : s.clearPos.nsym = s.nsym := rfl
@[simp] theorem State.clearPos_err : s.clearPos.err = s.err := rfl
@[simp] theorem State.clearPos_cursor : s.clearPos.cursor = s.cursor := rfl
@[simp] theorem State.clearPos_cap : s.clearPos.cap = s.cap := rfl
@[simp] theorem State.clearPos_txtpos : s.clearPos.txtpos = none := rfl
@[simp] theorem State.clearPos_buf : s.clearPos.buf = s.buf := rfl
@[simp] theorem State.clearPos_txt : s.clearPos.txt = s.txt := rfl
@[simp] theorem State.clearPos_response : s.clearPos.response = s.response := rfl
@[simp] theorem State.clearPos_agenda : s.clearPos.agenda = s.agenda := rfl

@[simp] theorem State.setBuf_code (m : Memory) : (s.setBuf m).code = s.code := rfl
@[simp] theorem State.setBuf_chk (m : Memory) : (s.setBuf m).chk = s.chk := rfl
@[simp] theorem State.setBuf_nsym (m : Memory) : (s.setBuf m).nsym = s.nsym := rfl
@[simp] theorem State.setBuf_err (m : Memory) : (s.setBuf m).err = s.err := rfl
@[simp] theorem State.setBuf_cursor (m : Memory) : (s.setBuf m).cursor = s.cursor := rfl
@[simp] theorem State.setBuf_cap (m : Memory) : (s.setBuf m).cap = s.cap := rfl
@[simp] theorem State.setBuf_txtpos (m : Memory) : (s.setBuf m).txtpos = s.txtpos := rfl
@[simp] theorem State.setBuf_buf (m : Memory) : (s.setBuf m).buf = m := rfl
@[simp] theorem State.setBuf_txt (m : Memory) : (s.setBuf m).txt = s.txt := rfl
@[simp] theorem State.setBuf_response (m : Memory) : (s.setBuf m).response = s.response := rfl
@[simp] theorem State.setBuf_agenda (m : Memory) : (s.setBuf m).agenda = s.agenda := rfl

@[simp] theorem State.setTxt_code (m : Memory) : (s.setTxt m).code = s.code := rfl
@[simp] theorem State.setTxt_chk (m : Memory) : (s.setTxt m).chk = s.chk := rfl
@[simp] theorem State.setTxt_nsym (m : Memory) : (s.setTxt m).nsym = s.nsym := rfl
@[simp] theorem State.setTxt_err (m : Memory) : (s.setTxt m).err = s.err := rfl
@[simp] theorem State.setTxt_cursor (m : Memory) : (s.setTxt m).cursor = s.cursor := rfl
@[simp] theorem State.setTxt_cap (m : Memory) : (s.setTxt m).cap = s.cap := rfl
@[simp] theorem State.setTxt_txtpos (m : Memory) : (s.setTxt m).txtpos = s.txtpos := rfl
@[simp] theorem State.setTxt_buf (m : Memory) : (s.setTxt m).buf = s.buf := rfl
@[simp] theorem State.setTxt_txt (m : Memory) : (s.setTxt m).txt = m := rfl
@[simp] theorem State.setTxt_response (m : Memory) : (s.setTxt m).response = s.response := rfl
@[simp] theorem State.setTxt_agenda (m : Memory) : (s.setTxt m).agenda = s.agenda := rfl

@[simp] theorem State.setAgenda_code (ms : List HostMove) : (s.setAgenda ms).code = s.code := rfl
@[simp] theorem State.setAgenda_chk (ms : List HostMove) : (s.setAgenda ms).chk = s.chk := rfl
@[simp] theorem State.setAgenda_nsym (ms : List HostMove) : (s.setAgenda ms).nsym = s.nsym := rfl
@[simp] theorem State.setAgenda_err (ms : List HostMove) : (s.setAgenda ms).err = s.err := rfl
@[simp] theorem State.setAgenda_cursor (ms : List HostMove) : (s.setAgenda ms).cursor = s.cursor := rfl
@[simp] theorem State.setAgenda_cap (ms : List HostMove) : (s.setAgenda ms).cap = s.cap := rfl
@[simp] theorem State.setAgenda_txtpos (ms : List HostMove) : (s.setAgenda ms).txtpos = s.txtpos := rfl
@[simp] theorem State.setAgenda_buf (ms : List HostMove) : (s.setAgenda ms).buf = s.buf := rfl
@[simp] theorem State.setAgenda_txt (ms : List HostMove) : (s.setAgenda ms).txt = s.txt := rfl
@[simp] theorem State.setAgenda_response (ms : List HostMove) : (s.setAgenda ms).response = s.response := rfl
@[simp] theorem State.setAgenda_agenda (ms : List HostMove) : (s.setAgenda ms).agenda = ms := rfl

@[simp] theorem State.respond_code (r : RespCode) (v : Nat) : (s.respond r v).code = s.code := rfl
@[simp] theorem State.respond_chk (r : RespCode) (v : Nat) : (s.respond r v).chk = s.chk := rfl
@[simp] theorem State.respond_nsym (r : RespCode) (v : Nat) : (s.respond r v).nsym = s.nsym := rfl
@[simp] theorem State.respond_err (r : RespCode) (v : Nat) : (s.respond r v).err = s.err := rfl
@[simp] theorem State.respond_cursor (r : RespCode) (v : Nat) : (s.respond r v).cursor = s.cursor := rfl
@[simp] theorem State.respond_cap (r : RespCode) (v : Nat) : (s.respond r v).cap = s.cap := rfl
@[simp] theorem State.respond_txtpos (r : RespCode) (v : Nat) : (s.respond r v).txtpos = s.txtpos := rfl
@[simp] theorem State.respond_buf (r : RespCode) (v : Nat) : (s.respond r v).buf = s.buf := rfl
@[simp] theorem State.respond_txt (r : RespCode) (v : Nat) : (s.respond r v).txt = s.txt := rfl
@[simp] theorem State.respond_response (r : RespCode) (v : Nat) : (s.respond r v).response = some ⟨r, BitVec.ofNat 32 v⟩ := rfl
@[simp] theorem State.respond_agenda (r : RespCode) (v : Nat) : (s.respond r v).agenda = s.agenda := rfl

@[simp] theorem State.refuse_code (r : RespCode) : (s.refuse r).code = s.code := rfl
@[simp] theorem State.refuse_chk (r : RespCode) : (s.refuse r).chk = s.chk := rfl
@[simp] theorem State.refuse_nsym (r : RespCode) : (s.refuse r).nsym = s.nsym := rfl
@[simp] theorem State.refuse_err (r : RespCode) : (s.refuse r).err = s.err := rfl
@[simp] theorem State.refuse_cursor (r : RespCode) : (s.refuse r).cursor = s.cursor := rfl
@[simp] theorem State.refuse_cap (r : RespCode) : (s.refuse r).cap = s.cap := rfl
@[simp] theorem State.refuse_txtpos (r : RespCode) : (s.refuse r).txtpos = s.txtpos := rfl
@[simp] theorem State.refuse_buf (r : RespCode) : (s.refuse r).buf = s.buf := rfl
@[simp] theorem State.refuse_txt (r : RespCode) : (s.refuse r).txt = s.txt := rfl
@[simp] theorem State.refuse_response (r : RespCode) : (s.refuse r).response = some ⟨r, 0#32⟩ := rfl
@[simp] theorem State.refuse_agenda (r : RespCode) : (s.refuse r).agenda = s.agenda := rfl

@[simp] theorem State.storeModule_code (o : BitOrder) (m : Module) : (s.storeModule o m).code = s.code := rfl
@[simp] theorem State.storeModule_chk (o : BitOrder) (m : Module) : (s.storeModule o m).chk = s.chk := rfl
@[simp] theorem State.storeModule_nsym (o : BitOrder) (m : Module) : (s.storeModule o m).nsym = s.nsym := rfl
@[simp] theorem State.storeModule_err (o : BitOrder) (m : Module) : (s.storeModule o m).err = s.err := rfl
@[simp] theorem State.storeModule_cursor (o : BitOrder) (m : Module) : (s.storeModule o m).cursor = s.cursor + 1 := rfl
@[simp] theorem State.storeModule_cap (o : BitOrder) (m : Module) : (s.storeModule o m).cap = s.cap := rfl
@[simp] theorem State.storeModule_txtpos (o : BitOrder) (m : Module) : (s.storeModule o m).txtpos = s.txtpos := rfl
@[simp] theorem State.storeModule_buf (o : BitOrder) (m : Module) : (s.storeModule o m).buf = writeBit o s.buf s.cursor m := rfl
@[simp] theorem State.storeModule_txt (o : BitOrder) (m : Module) : (s.storeModule o m).txt = s.txt := rfl
@[simp] theorem State.storeModule_response (o : BitOrder) (m : Module) : (s.storeModule o m).response = s.response := rfl
@[simp] theorem State.storeModule_agenda (o : BitOrder) (m : Module) : (s.storeModule o m).agenda = s.agenda := rfl

@[simp] theorem State.pos_setPos (p : Nat) : (s.setPos p).pos = p := rfl

end Sys2Proof.Machine
end

