-- ==== Sys2Proof/Laws/Memory.lean ====
section
/-! SUPPORT. The laws of the byte spaces: a read after a write, the canonical form, and the bits of a byte. -/

namespace Sys2Proof.Machine

/-! ### Reads after writes -/

theorem Memory.read_put_other {a a' : Nat} (h : a' ≠ a) (v : Byte) (m : Memory) :
    Memory.read (Memory.put a v m) a' = Memory.read m a' := by
  unfold Memory.put
  split
  · rfl
  · simp [Memory.read, h]

theorem Memory.read_write_other {a a' : Nat} (h : a' ≠ a) (v : Byte) (m : Memory) :
    Memory.read (Memory.write m a v) a' = Memory.read m a' := by
  induction m with
  | nil => simp [Memory.write, Memory.read_put_other h]
  | cons c m ih =>
    obtain ⟨k, w⟩ := c
    simp only [Memory.write]
    split_ifs with h1 h2
    · exact Memory.read_put_other h v _
    · subst h2
      rw [Memory.read_put_other h]
      simp [Memory.read, h]
    · simp [Memory.read, ih]

theorem Memory.wfFrom_weaken {lo lo' : Nat} (h : lo' ≤ lo) {m : Memory} (hm : Memory.wfFrom lo m = true) :
    Memory.wfFrom lo' m = true := by
  cases m with
  | nil => rfl
  | cons c m =>
    obtain ⟨k, v⟩ := c
    simp only [Memory.wfFrom, Bool.and_eq_true, decide_eq_true_eq] at hm ⊢
    exact ⟨⟨by omega, hm.1.2⟩, hm.2⟩

theorem Memory.read_below {lo a : Nat} (h : a < lo) {m : Memory} (hm : Memory.wfFrom lo m = true) :
    Memory.read m a = Memory.unwritten := by
  induction m generalizing lo with
  | nil => rfl
  | cons c m ih =>
    obtain ⟨k, v⟩ := c
    simp only [Memory.wfFrom, Bool.and_eq_true, decide_eq_true_eq] at hm
    have hk : a ≠ k := by omega
    simp only [Memory.read, if_neg hk]
    exact ih (by omega : a < k + 1) hm.2

theorem Memory.read_put_same {a lo : Nat} (h : a < lo) (v : Byte) {m : Memory}
    (hm : Memory.wfFrom lo m = true) : Memory.read (Memory.put a v m) a = v := by
  unfold Memory.put
  split
  · rename_i hv; rw [hv]; exact Memory.read_below h hm
  · simp [Memory.read]

theorem Memory.read_write_same_from {lo : Nat} (a : Nat) (v : Byte) {m : Memory}
    (hm : Memory.wfFrom lo m = true) : Memory.read (Memory.write m a v) a = v := by
  induction m generalizing lo with
  | nil => exact Memory.read_put_same (Nat.lt_succ_self a) v rfl
  | cons c m ih =>
    obtain ⟨k, w⟩ := c
    have hm' := hm
    simp only [Memory.wfFrom, Bool.and_eq_true, decide_eq_true_eq] at hm'
    simp only [Memory.write]
    split_ifs with h1 h2
    · refine Memory.read_put_same (lo := a + 1) (by omega) v ?_
      simp only [Memory.wfFrom, Bool.and_eq_true, decide_eq_true_eq]
      exact ⟨⟨by omega, hm'.1.2⟩, hm'.2⟩
    · subst h2
      exact Memory.read_put_same (Nat.lt_succ_self a) v hm'.2
    · simp only [Memory.read, if_neg h2]
      exact ih hm'.2

/-- A read after a write to the same offset gives the byte written. -/
theorem Memory.read_write_same (a : Nat) (v : Byte) {m : Memory} (hm : m.wf = true) :
    Memory.read (Memory.write m a v) a = v := Memory.read_write_same_from a v hm

/-! ### The canonical form -/

theorem Memory.put_wfFrom {a lo : Nat} (hlo : lo ≤ a) (v : Byte) {m : Memory}
    (hm : Memory.wfFrom (a + 1) m = true) : Memory.wfFrom lo (Memory.put a v m) = true := by
  unfold Memory.put
  split
  · exact Memory.wfFrom_weaken (by omega) hm
  · rename_i hv
    simp [Memory.wfFrom, hlo, hv, hm]

theorem Memory.write_wfFrom {lo a : Nat} (hlo : lo ≤ a) (v : Byte) {m : Memory}
    (hm : Memory.wfFrom lo m = true) : Memory.wfFrom lo (Memory.write m a v) = true := by
  induction m generalizing lo with
  | nil => exact Memory.put_wfFrom hlo v rfl
  | cons c m ih =>
    obtain ⟨k, w⟩ := c
    have hm' := hm
    simp only [Memory.wfFrom, Bool.and_eq_true, decide_eq_true_eq] at hm'
    simp only [Memory.write]
    split_ifs with h1 h2
    · refine Memory.put_wfFrom hlo v ?_
      simp only [Memory.wfFrom, Bool.and_eq_true, decide_eq_true_eq]
      exact ⟨⟨by omega, hm'.1.2⟩, hm'.2⟩
    · subst h2; exact Memory.put_wfFrom hlo v hm'.2
    · simp only [Memory.wfFrom, Bool.and_eq_true, decide_eq_true_eq]
      exact ⟨hm'.1, ih (by omega) hm'.2⟩

/-- A write keeps the canonical form. -/
theorem Memory.write_wf (a : Nat) (v : Byte) {m : Memory} (hm : m.wf = true) : (Memory.write m a v).wf = true :=
  Memory.write_wfFrom (Nat.zero_le a) v hm

/-- Writing a run of bytes keeps the canonical form. -/
theorem Memory.writeBytes_wf {m : Memory} (hm : m.wf = true) (off : Nat) (vs : List Byte) :
    (m.writeBytes off vs).wf = true := by
  induction vs generalizing m off with
  | nil => exact hm
  | cons v vs ih => exact ih (Memory.write_wf off v hm) (off + 1)

/-- The offsets listed after a write: those listed before, and the one written. -/
theorem Memory.mem_write {m : Memory} {a : Nat} {v : Byte} {cell : Host.Cell}
    (h : cell ∈ Memory.write m a v) : cell.1 = a ∨ cell ∈ m := by
  have hput : ∀ {m' : Memory}, cell ∈ Memory.put a v m' → cell.1 = a ∨ cell ∈ m' := by
    intro m' h'
    unfold Memory.put at h'
    split at h'
    · exact .inr h'
    · rcases List.mem_cons.1 h' with rfl | h'
      · exact .inl rfl
      · exact .inr h'
  induction m with
  | nil => exact hput h
  | cons c m ih =>
    obtain ⟨k, w⟩ := c
    simp only [Memory.write] at h
    split_ifs at h with h1 h2
    · exact hput h
    · rcases hput h with h | h
      · exact .inl h
      · exact .inr (List.mem_cons_of_mem _ h)
    · rcases List.mem_cons.1 h with rfl | h
      · exact .inr (List.mem_cons_self)
      · rcases ih h with h | h
        · exact .inl h
        · exact .inr (List.mem_cons_of_mem _ h)

/-- The offsets listed after writing a run of bytes. -/
theorem Memory.mem_writeBytes {m : Memory} {off : Nat} {vs : List Byte} {cell : Host.Cell}
    (h : cell ∈ m.writeBytes off vs) : (off ≤ cell.1 ∧ cell.1 < off + vs.length) ∨ cell ∈ m := by
  induction vs generalizing m off with
  | nil => exact .inr h
  | cons v vs ih =>
    rcases ih h with h | h
    · exact .inl ⟨by omega, by simp only [List.length_cons]; omega⟩
    · rcases Memory.mem_write h with h | h
      · exact .inl ⟨by omega, by simp only [List.length_cons]; omega⟩
      · exact .inr h

/-- A read outside a run of bytes just written gives what it gave before. -/
theorem Memory.read_writeBytes_other (m : Memory) (off : Nat) (vs : List Byte) {a : Nat}
    (h : a < off ∨ off + vs.length ≤ a) : (m.writeBytes off vs).read a = m.read a := by
  induction vs generalizing m off with
  | nil => rfl
  | cons v vs ih =>
    simp only [List.length_cons] at h
    rw [Memory.writeBytes, ih _ _ (by omega), Memory.read_write_other (by omega)]

/-- A read inside a run of bytes just written gives the byte written there. -/
theorem Memory.read_writeBytes_same {m : Memory} (hm : m.wf = true) (off : Nat) (vs : List Byte) {k : Nat}
    (h : k < vs.length) : (m.writeBytes off vs).read (off + k) = vs[k] := by
  induction vs generalizing m off k with
  | nil => simp at h
  | cons v vs ih =>
    cases k with
    | zero =>
      rw [Memory.writeBytes, Memory.read_writeBytes_other _ _ _ (by omega)]
      exact Memory.read_write_same _ _ hm
    | succ k =>
      have := ih (Memory.write_wf off v hm) (off + 1) (k := k) (by simpa using h)
      simpa [Memory.writeBytes, Nat.add_assoc, Nat.add_comm 1 k] using this

/-! ### The bits of a byte -/

/-- Replacing a bit stores it there and keeps the other seven (R56, R130). -/
theorem replaceBit_getLsbD (v : Byte) {b : Nat} (hb : b < 8) (m : Module) {j : Nat} (hj : j < 8) :
    (replaceBit v b m).getLsbD j = if j = b then m else v.getLsbD j := by
  have key : ∀ b : Fin 8, ∀ j : Fin 8, (1#8 <<< b.val).getLsbD j.val = decide (j = b) := by decide
  have key' : ∀ b : Fin 8, ∀ j : Fin 8, ∀ m : Bool,
      (BitVec.ofNat 8 m.toNat <<< b.val).getLsbD j.val = (decide (j = b) && m) := by decide
  have h1 := key ⟨b, hb⟩ ⟨j, hj⟩
  have h2 := key' ⟨b, hb⟩ ⟨j, hj⟩ m
  simp only [Fin.mk.injEq] at h1 h2
  simp only [replaceBit, BitVec.getLsbD_or, BitVec.getLsbD_and, BitVec.getLsbD_not, h1, h2, hj]
  by_cases h : j = b <;> simp [h]

theorem bitPos_lt (o : BitOrder) (i : Nat) : bitPos o i < 8 := by
  cases o <;> simp only [bitPos] <;> omega

/-- The pair of byte offset and bit position identifies the module (R51). -/
theorem module_address_injective (o : BitOrder) {i j : Nat} (h1 : byteOff i = byteOff j)
    (h2 : bitPos o i = bitPos o j) : i = j := by
  cases o <;> simp only [byteOff, bitPos] at h1 h2 <;> omega

/-- The module just stored reads back (R56). -/
theorem readModule_writeBit_same (o : BitOrder) {buf : Memory} (hw : buf.wf = true) (i : Nat) (m : Module) :
    readModule o (writeBit o buf i m) i = m := by
  simp [readModule, writeBit, Memory.read_write_same _ _ hw, replaceBit_getLsbD _ (bitPos_lt o i) _ (bitPos_lt o i)]

/-- Storing a module leaves every other one alone (R56). -/
theorem readModule_writeBit_other (o o' : BitOrder) {buf : Memory} (hw : buf.wf = true) {i j : Nat} (m : Module)
    (h : byteOff j ≠ byteOff i ∨ bitPos o' j ≠ bitPos o i) :
    readModule o' (writeBit o buf i m) j = readModule o' buf j := by
  unfold readModule writeBit
  by_cases hb : byteOff j = byteOff i
  · have hp : bitPos o' j ≠ bitPos o i := by simpa [hb] using h
    rw [hb, Memory.read_write_same _ _ hw, replaceBit_getLsbD _ (bitPos_lt o i) _ (bitPos_lt o' j), if_neg hp]
  · rw [Memory.read_write_other hb]

end Sys2Proof.Machine
end

