-- ==== Sys2Proof/Laws/Sink.lean ====
section
/-! SUPPORT. The Bit Sink: what `writeModule` and a run of modules do to each part of the state (R130 to R133, R138), and
`Extends`, the one relation that every procedure of the block keeps. -/

namespace Sys2Proof.Machine

theorem hasRoom_iff (s : State) : s.hasRoom = true ↔ s.cursor < 8 * s.cap := by
  unfold State.hasRoom
  rw [decide_eq_true_eq]
  unfold byteOff
  omega

/-- The two cases of `WriteModule` (R130). -/
theorem writeModule_cases (o : BitOrder) (m : Module) (s : State) :
    (s.cursor < 8 * s.cap ∧ writeModule o m s = s.storeModule o m) ∨
    (8 * s.cap ≤ s.cursor ∧ writeModule o m s = s.flagErr) := by
  by_cases h : s.hasRoom = true
  · exact .inl ⟨(hasRoom_iff s).1 h, by simp [writeModule, h]⟩
  · exact .inr ⟨by have := mt (hasRoom_iff s).2 h; omega, by simp [writeModule, h]⟩

/-! ### What every procedure of the block keeps -/

/-- How the block may change a state inside a run: CAP, TXT, the pending moves and the response stay; CURSOR and NSYM
never fall; ERR is never cleared; BUF is written only between the cursors and below CAP; and the bounds of R33 are
kept. -/
structure Extends (o : BitOrder) (s t : State) : Prop where
  cap : t.cap = s.cap
  txt : t.txt = s.txt
  agenda : t.agenda = s.agenda
  response : t.response = s.response
  cursor_le : s.cursor ≤ t.cursor
  cursor_bound : t.cursor ≤ max s.cursor (8 * s.cap)
  nsym_le : s.nsym ≤ t.nsym
  err : s.err = true → t.err = true
  bufWf : s.buf.wf = true → t.buf.wf = true
  bufMem : ∀ cell ∈ t.buf, cell.1 < s.cap ∨ cell ∈ s.buf
  beyond : ∀ a, s.cap ≤ a → t.buf.read a = s.buf.read a
  below : ∀ a, 8 * a + 8 ≤ s.cursor ∨ t.cursor ≤ 8 * a → t.buf.read a = s.buf.read a
  kept : s.buf.wf = true → ∀ j, j < s.cursor ∨ t.cursor ≤ j → readModule o t.buf j = readModule o s.buf j
  symbolsStored : (s.err = false → 11 * s.nsym ≤ s.cursor) → t.err = false → 11 * t.nsym ≤ t.cursor
  symbolsBound : (s.err = false → 11 * s.nsym ≤ s.cursor) → 11 * (s.nsym - 1) ≤ s.cursor →
    11 * (t.nsym - 1) ≤ t.cursor
  checksumStart : (s.nsym = 0 → s.chk = 0) → t.nsym = 0 → t.chk = 0
  err_nsym : s.err = true → t.nsym = s.nsym ∧ t.chk = s.chk

theorem Extends.refl (o : BitOrder) (s : State) : Extends o s s where
  cap := rfl
  txt := rfl
  agenda := rfl
  response := rfl
  cursor_le := Nat.le_refl _
  cursor_bound := Nat.le_max_left _ _
  nsym_le := Nat.le_refl _
  err h := h
  bufWf h := h
  bufMem _ h := .inr h
  beyond _ _ := rfl
  below _ _ := rfl
  kept _ _ _ := rfl
  symbolsStored h := h
  symbolsBound _ h := h
  checksumStart h := h
  err_nsym _ := ⟨rfl, rfl⟩

theorem Extends.trans {o : BitOrder} {s t u : State} (h1 : Extends o s t) (h2 : Extends o t u) : Extends o s u where
  cap := h2.cap.trans h1.cap
  txt := h2.txt.trans h1.txt
  agenda := h2.agenda.trans h1.agenda
  response := h2.response.trans h1.response
  cursor_le := Nat.le_trans h1.cursor_le h2.cursor_le
  cursor_bound := by
    have ha := h1.cursor_bound
    have hb := h2.cursor_bound
    rw [h1.cap] at hb
    omega
  nsym_le := Nat.le_trans h1.nsym_le h2.nsym_le
  err h := h2.err (h1.err h)
  bufWf h := h2.bufWf (h1.bufWf h)
  bufMem cell h := by
    rcases h2.bufMem cell h with h | h
    · exact .inl (h1.cap ▸ h)
    · exact h1.bufMem cell h
  beyond a h := (h2.beyond a (h1.cap ▸ h)).trans (h1.beyond a h)
  below a h := by
    have ha := h1.cursor_le
    have hb := h2.cursor_le
    exact (h2.below a (by omega)).trans (h1.below a (by omega))
  kept hw j h := by
    have ha := h1.cursor_le
    have hb := h2.cursor_le
    exact (h2.kept (h1.bufWf hw) j (by omega)).trans (h1.kept hw j (by omega))
  symbolsStored h := h2.symbolsStored (h1.symbolsStored h)
  symbolsBound h h' := h2.symbolsBound (h1.symbolsStored h) (h1.symbolsBound h h')
  checksumStart h := h2.checksumStart (h1.checksumStart h)
  err_nsym h := by
    obtain ⟨ha, hb⟩ := h1.err_nsym h
    obtain ⟨hc, hd⟩ := h2.err_nsym (h1.err h)
    exact ⟨hc.trans ha, hd.trans hb⟩

theorem Extends.flagErr (o : BitOrder) (s : State) : Extends o s s.flagErr :=
  { Extends.refl o s with err := fun _ => rfl, symbolsStored := fun _ h => by simp at h }

theorem Extends.storeModule (o : BitOrder) {s : State} (h : s.cursor < 8 * s.cap) (m : Module) :
    Extends o s (s.storeModule o m) where
  cap := rfl
  txt := rfl
  agenda := rfl
  response := rfl
  cursor_le := by simp
  cursor_bound := by simp only [State.storeModule_cursor]; omega
  nsym_le := Nat.le_refl _
  err h := h
  bufWf hw := Memory.write_wf _ _ hw
  bufMem cell hc := by
    rcases Memory.mem_write hc with h' | h'
    · exact .inl (by rw [h', byteOff]; omega)
    · exact .inr h'
  beyond a ha := Memory.read_write_other (by simp only [byteOff]; omega) _ _
  below a ha := Memory.read_write_other (by simp only [State.storeModule_cursor] at ha; simp only [byteOff]; omega) _ _
  kept hw j hj := by
    refine readModule_writeBit_other o o hw m ?_
    by_contra hc
    simp only [not_or, not_not] at hc
    have := module_address_injective o hc.1 hc.2
    simp only [State.storeModule_cursor] at hj
    omega
  symbolsStored h he := by have := h he; simp only [State.storeModule_nsym, State.storeModule_cursor]; omega
  symbolsBound _ h := by simp only [State.storeModule_nsym, State.storeModule_cursor]; omega
  checksumStart h := h
  err_nsym _ := ⟨rfl, rfl⟩

theorem Extends.writeModule (o : BitOrder) (m : Module) (s : State) : Extends o s (writeModule o m s) := by
  rcases writeModule_cases o m s with ⟨h, he⟩ | ⟨_, he⟩ <;> rw [he]
  · exact Extends.storeModule o h m
  · exact Extends.flagErr o s

theorem Extends.writeAll (o : BitOrder) (ms : List Module) (s : State) : Extends o s (writeAll o ms s) := by
  induction ms generalizing s with
  | nil => exact Extends.refl o s
  | cons m ms ih => exact (Extends.writeModule o m s).trans (ih _)

/-! ### A run of modules -/

theorem writeAll_append (o : BitOrder) (ms ns : List Module) (s : State) :
    writeAll o (ms ++ ns) s = writeAll o ns (writeAll o ms s) := by
  induction ms generalizing s with
  | nil => rfl
  | cons m ms ih => exact ih _

/-- The sink never touches the encoder's registers nor TXTPOS (R130). -/
theorem writeAll_encoder (o : BitOrder) (ms : List Module) (s : State) :
    (writeAll o ms s).code = s.code ∧ (writeAll o ms s).chk = s.chk ∧ (writeAll o ms s).nsym = s.nsym ∧
    (writeAll o ms s).txtpos = s.txtpos := by
  induction ms generalizing s with
  | nil => exact ⟨rfl, rfl, rfl, rfl⟩
  | cons m ms ih =>
    have hm : (writeModule o m s).code = s.code ∧ (writeModule o m s).chk = s.chk ∧
        (writeModule o m s).nsym = s.nsym ∧ (writeModule o m s).txtpos = s.txtpos := by
      rcases writeModule_cases o m s with ⟨_, he⟩ | ⟨_, he⟩ <;> rw [he] <;> simp
    obtain ⟨h1, h2, h3, h4⟩ := ih (writeModule o m s)
    exact ⟨h1.trans hm.1, h2.trans hm.2.1, h3.trans hm.2.2.1, h4.trans hm.2.2.2⟩

@[simp] theorem writeAll_code (o : BitOrder) (ms : List Module) (s : State) : (writeAll o ms s).code = s.code :=
  (writeAll_encoder o ms s).1
@[simp] theorem writeAll_chk (o : BitOrder) (ms : List Module) (s : State) : (writeAll o ms s).chk = s.chk :=
  (writeAll_encoder o ms s).2.1
@[simp] theorem writeAll_nsym (o : BitOrder) (ms : List Module) (s : State) : (writeAll o ms s).nsym = s.nsym :=
  (writeAll_encoder o ms s).2.2.1
@[simp] theorem writeAll_txtpos (o : BitOrder) (ms : List Module) (s : State) :
    (writeAll o ms s).txtpos = s.txtpos := (writeAll_encoder o ms s).2.2.2
@[simp] theorem writeAll_cap (o : BitOrder) (ms : List Module) (s : State) : (writeAll o ms s).cap = s.cap :=
  (Extends.writeAll o ms s).cap
@[simp] theorem writeAll_txt (o : BitOrder) (ms : List Module) (s : State) : (writeAll o ms s).txt = s.txt :=
  (Extends.writeAll o ms s).txt
@[simp] theorem writeAll_agenda (o : BitOrder) (ms : List Module) (s : State) :
    (writeAll o ms s).agenda = s.agenda := (Extends.writeAll o ms s).agenda
@[simp] theorem writeAll_response (o : BitOrder) (ms : List Module) (s : State) :
    (writeAll o ms s).response = s.response := (Extends.writeAll o ms s).response

/-- CURSOR after a run of modules (R130, R132). -/
theorem writeAll_cursor (o : BitOrder) (ms : List Module) (s : State) :
    (writeAll o ms s).cursor = s.cursorAfter ms.length := by
  induction ms generalizing s with
  | nil => simp only [writeAll, State.cursorAfter, List.length_nil]; omega
  | cons m ms ih =>
    rw [writeAll, ih]
    rcases writeModule_cases o m s with ⟨h, he⟩ | ⟨h, he⟩ <;>
      simp only [he, State.cursorAfter, State.storeModule_cursor, State.storeModule_cap, State.flagErr_cursor,
        State.flagErr_cap, List.length_cons] <;> omega

/-- ERR after offering `w` modules, as a condition on the numbers (R130, R132). -/
theorem errAfter_iff (s : State) (w : Nat) :
    s.errAfter w = true ↔ s.err = true ∨ (0 < w ∧ 8 * s.cap < s.cursor + w) := by
  unfold State.errAfter
  rw [Bool.or_eq_true, decide_eq_true_eq]
  unfold State.cursorAfter
  exact or_congr Iff.rfl (by omega)

/-- ERR after a run of modules: set when one was dropped (R138 d). -/
theorem writeAll_err (o : BitOrder) (ms : List Module) (s : State) :
    (writeAll o ms s).err = s.errAfter ms.length := by
  induction ms generalizing s with
  | nil => rw [Bool.eq_iff_iff, errAfter_iff]; simp [writeAll]
  | cons m ms ih =>
    rw [writeAll, ih, Bool.eq_iff_iff, errAfter_iff, errAfter_iff]
    rcases writeModule_cases o m s with ⟨h, he⟩ | ⟨h, he⟩ <;> rw [he]
    · exact or_congr Iff.rfl (by simp only [State.storeModule_cursor, State.storeModule_cap, List.length_cons]; omega)
    · simp only [State.flagErr_err, true_or, true_iff, List.length_cons]
      exact .inr (by omega)

/-- The stored modules are the leading ones of the run, in order (R131). -/
theorem writeAll_module (o : BitOrder) (ms : List Module) {s : State} (hw : s.buf.wf = true) {k : Nat}
    (hk : s.cursor + k < (writeAll o ms s).cursor) :
    ms[k]? = some (readModule o (writeAll o ms s).buf (s.cursor + k)) := by
  induction ms generalizing s k with
  | nil => simp [writeAll] at hk
  | cons m ms ih =>
    have hrest := Extends.writeAll o ms (writeModule o m s)
    rcases writeModule_cases o m s with ⟨h, he⟩ | ⟨h, he⟩
    · cases k with
      | zero =>
        have hw' : (writeModule o m s).buf.wf = true := (Extends.writeModule o m s).bufWf hw
        have hkeep := hrest.kept hw' s.cursor (.inl (by rw [he]; simp))
        rw [writeAll, Nat.add_zero, hkeep, he]
        simp [readModule_writeBit_same o hw]
      | succ k =>
        have hw' : (writeModule o m s).buf.wf = true := (Extends.writeModule o m s).bufWf hw
        have hc : (writeModule o m s).cursor = s.cursor + 1 := by rw [he]; rfl
        have := ih (s := writeModule o m s) hw' (k := k) (by
          rw [writeAll] at hk
          rw [hc]; omega)
        rw [hc, show s.cursor + 1 + k = s.cursor + (k + 1) by omega] at this
        simpa [writeAll] using this
    · exfalso
      rw [writeAll_cursor] at hk
      simp only [State.cursorAfter] at hk
      omega

/-- `Quiet(n)` as a run of modules. -/
theorem quiet_eq (o : BitOrder) (n : Nat) (s : State) : quiet o n s = writeAll o (List.replicate n light) s := rfl

theorem patModules_length (p w : Nat) : (patModules p w).length = w := by
  induction w with
  | zero => rfl
  | succ w ih => simp [patModules, ih]

/-- Module `k` of `WriteModules(p, w)` is bit `w - 1 - k` of `p` (R131). -/
theorem patModules_getElem? (p : Nat) {w k : Nat} (h : k < w) :
    (patModules p w)[k]? = some (p.testBit (w - 1 - k)) := by
  induction w generalizing k with
  | zero => omega
  | succ w ih =>
    cases k with
    | zero => simp [patModules]
    | succ k =>
      simp only [patModules, List.getElem?_cons_succ]
      rw [ih (by omega)]
      congr 2
      omega

end Sys2Proof.Machine
end

