-- ==== Sys2Proof/Laws/SymRom.lean ====
section
/-! SUPPORT. The Symbol Table: its structural properties (R110, R113, R114), each by evaluating the 107 entries once. -/

namespace Sys2Proof.Machine

theorem symTable_length : symTable.length = 107 := by decide +kernel

theorem symWidths_out {c : Nat} (h : 107 ≤ c) : symWidths c = [] := by
  rw [symWidths, List.getD_eq_getElem?_getD, List.getElem?_eq_none (by rw [symTable_length]; exact h)]
  rfl

theorem symWidths_range (c : Nat) (h : c < 107) :
    (symModules c).length = (if c = 106 then 13 else 11) ∧
    patModules (symRom c).pat (symRom c).width = symModules c ∧
    (symModules c).head? = some dark ∧ (symModules c).getLast? = some (decide (c ≠ 106)) := by
  have key : ∀ c : Fin 107, (symModules c.val).length = (if c.val = 106 then 13 else 11) ∧
      patModules (symRom c.val).pat (symRom c.val).width = symModules c.val ∧
      (symModules c.val).head? = some dark ∧ (symModules c.val).getLast? = some (decide (c.val ≠ 106)) := by
    decide +kernel
  exact key ⟨c, h⟩

/-- The modules written for symbol `c` are its expanded widths (R113, R131). -/
theorem symRom_modules (c : Nat) : patModules (symRom c).pat (symRom c).width = symModules c := by
  by_cases h : c < 107
  · exact (symWidths_range c h).2.1
  · simp [symRom, symModules, symWidths_out (Nat.le_of_not_lt h), expand, expandFrom, patModules]

/-- `width(c)` is 11 for codes 0 to 105 (R110). -/
theorem symModules_length {c : Nat} (h : c ≤ 105) : (symModules c).length = 11 := by
  have := (symWidths_range c (by omega)).1
  rw [this, if_neg (by omega)]

/-- `width(106)` is 13 (R110). -/
theorem symModules_stop : (symModules stopSym).length = 13 := by
  rw [(symWidths_range stopSym (by decide)).1]
  rfl

/-- No symbol that is a symbol has fewer than 11 modules (R33). -/
theorem symModules_length_ge {c : Nat} (h : c ≤ 106) : 11 ≤ (symModules c).length := by
  have := (symWidths_range c (by omega)).1
  rw [this]
  split <;> omega

end Sys2Proof.Machine
end

