-- ==== Sys2Proof/Laws/Encoder.lean ====
section
/-! SUPPORT. The encoder's procedures: the cases of each, that each keeps `Extends`, and the range of the symbols they
emit (R58, R150 to R160). -/

namespace Sys2Proof.Machine

/-! ### The symbols that the encoder emits are 0 to 106 (R58) -/

theorem pairSym_le {b0 b1 : Byte} (h0 : isDigit (some b0) = true) (h1 : isDigit (some b1) = true) :
    pairSym b0 b1 ≤ 99 := by
  unfold isDigit at h0 h1
  rw [decide_eq_true_eq] at h0 h1
  unfold pairSym
  omega

theorem charSym_le {b : Byte} (h : unencodable b = false) : charSym b ≤ 95 := by
  unfold unencodable at h
  rw [decide_eq_false_iff_not] at h
  unfold charSym Config.ctlHi
  split <;> omega

theorem transitionSym_range {cur t : CodeSet} {c : Nat} (h : transitionSym cur t = some c) : 99 ≤ c ∧ c ≤ 105 := by
  cases cur <;> cases t <;> simp [transitionSym, startSym, switchSym] at h <;> omega

/-- Nothing is emitted exactly on an illegal transition (R152). -/
theorem transitionSym_none_iff (cur t : CodeSet) : transitionSym cur t = none ↔ illegalTransition cur t = true := by
  cases cur <;> cases t <;> decide

theorem target_ne (lo : Nat) (b : Byte) (fix : Fix) : target lo b fix = .a ∨ target lo b fix = .b ∨ target lo b fix = .c := by
  cases fix <;> simp only [target, required, Option.getD_some, true_or, or_true]
  split_ifs <;> simp

/-! ### AppendSymbol -/

theorem inert_iff (s : State) : s.inert = true ↔ s.err = true ∨ s.code = .stop := by
  simp [State.inert]

theorem emitSymbol_eq (o : BitOrder) (c : Nat) (s : State) :
    emitSymbol o c s = (writeAll o (symModules c) s).countSymbol c := by
  rw [emitSymbol, writeModules, symRom_modules]

/-- The two cases of `AppendSymbol` (R150). -/
theorem appendSymbol_cases (o : BitOrder) (c : Nat) (s : State) :
    ((s.err = true ∨ s.code = .stop) ∧ appendSymbol o c s = s.flagErr) ∨
    (s.err = false ∧ s.code ≠ .stop ∧ appendSymbol o c s = (writeAll o (symModules c) s).countSymbol c) := by
  by_cases h : s.inert = true
  · exact .inl ⟨(inert_iff s).1 h, by simp [appendSymbol, h]⟩
  · have h' := mt (inert_iff s).2 h
    simp only [not_or, Bool.not_eq_true] at h'
    exact .inr ⟨h'.1, h'.2, by rw [appendSymbol, if_neg h, emitSymbol_eq]⟩

theorem appendSymbol_inert (o : BitOrder) (c : Nat) {s : State} (h : s.err = true ∨ s.code = .stop) :
    appendSymbol o c s = s.flagErr := by
  rw [appendSymbol, if_pos ((inert_iff s).2 h)]

theorem appendSymbol_accepted (o : BitOrder) (c : Nat) {s : State} (h : s.err = false) (hc : s.code ≠ .stop) :
    appendSymbol o c s = (writeAll o (symModules c) s).countSymbol c := by
  rcases appendSymbol_cases o c s with ⟨h' | h', _⟩ | ⟨_, _, he⟩
  · simp [h] at h'
  · exact absurd h' hc
  · exact he

@[simp] theorem appendSymbol_code (o : BitOrder) (c : Nat) (s : State) : (appendSymbol o c s).code = s.code := by
  rcases appendSymbol_cases o c s with ⟨_, he⟩ | ⟨_, _, he⟩ <;> simp [he]

@[simp] theorem appendSymbol_txtpos (o : BitOrder) (c : Nat) (s : State) :
    (appendSymbol o c s).txtpos = s.txtpos := by
  rcases appendSymbol_cases o c s with ⟨_, he⟩ | ⟨_, _, he⟩ <;> simp [he]

theorem appendSymbol_nsym_le (o : BitOrder) (c : Nat) (s : State) : (appendSymbol o c s).nsym ≤ s.nsym + 1 := by
  rcases appendSymbol_cases o c s with ⟨_, he⟩ | ⟨_, _, he⟩ <;> simp [he]

theorem Extends.appendSymbol (o : BitOrder) {c : Nat} (hc : c ≤ 106) (s : State) :
    Extends o s (appendSymbol o c s) := by
  rcases appendSymbol_cases o c s with ⟨_, he⟩ | ⟨hz, _, he⟩ <;> rw [he]
  · exact Extends.flagErr o s
  · have h := Extends.writeAll o (symModules c) s
    have hl := symModules_length_ge hc
    refine { h with
      nsym_le := by simp
      symbolsStored := ?_
      symbolsBound := ?_
      checksumStart := fun _ h => by simp at h
      err_nsym := fun h => by simp [hz] at h }
    · intro hs he
      have hs := hs hz
      simp only [State.countSymbol_err, State.countSymbol_nsym, State.countSymbol_cursor, writeAll_nsym] at he ⊢
      rw [writeAll_err, Bool.eq_false_iff, ne_eq, errAfter_iff] at he
      rw [writeAll_cursor]
      unfold State.cursorAfter
      omega
    · intro hs _
      have hs := hs hz
      have := h.cursor_le
      simp only [State.countSymbol_nsym, State.countSymbol_cursor, writeAll_nsym, Nat.add_sub_cancel]
      omega

/-! ### ChangeCode -/

/-- The three cases of `ChangeCode` (R152). -/
theorem changeCode_cases (o : BitOrder) (t : CodeSet) (s : State) :
    (t = s.code ∧ changeCode o t s = s) ∨
    (t ≠ s.code ∧ illegalTransition s.code t = true ∧ changeCode o t s = s.flagErr) ∨
    (t ≠ s.code ∧ illegalTransition s.code t = false ∧
      ∃ c, transitionSym s.code t = some c ∧ changeCode o t s = (appendSymbol o c s).setCode t) := by
  by_cases h : t = s.code
  · exact .inl ⟨h, by simp [changeCode, h]⟩
  · refine .inr ?_
    cases ht : transitionSym s.code t with
    | none => exact .inl ⟨h, (transitionSym_none_iff _ _).1 ht, by simp [changeCode, h, ht]⟩
    | some c =>
      refine .inr ⟨h, ?_, c, rfl, by simp [changeCode, h, ht]⟩
      rw [Bool.eq_false_iff]
      intro hc
      rw [(transitionSym_none_iff _ _).2 hc] at ht
      cases ht

@[simp] theorem changeCode_txtpos (o : BitOrder) (t : CodeSet) (s : State) :
    (changeCode o t s).txtpos = s.txtpos := by
  rcases changeCode_cases o t s with ⟨_, he⟩ | ⟨_, _, he⟩ | ⟨_, _, c, _, he⟩ <;> simp [he]

theorem changeCode_nsym_le (o : BitOrder) (t : CodeSet) (s : State) : (changeCode o t s).nsym ≤ s.nsym + 1 := by
  rcases changeCode_cases o t s with ⟨_, he⟩ | ⟨_, _, he⟩ | ⟨_, _, c, _, he⟩ <;> rw [he]
  · omega
  · simp
  · exact appendSymbol_nsym_le o c s

theorem Extends.setCode {o : BitOrder} {s t : State} (h : Extends o s t) (cs : CodeSet) : Extends o s (t.setCode cs) :=
  { h with }

theorem Extends.setPos {o : BitOrder} {s t : State} (h : Extends o s t) (p : Nat) : Extends o s (t.setPos p) :=
  { h with }

theorem Extends.clearPos {o : BitOrder} {s t : State} (h : Extends o s t) : Extends o s t.clearPos :=
  { h with }

theorem Extends.changeCode (o : BitOrder) (t : CodeSet) (s : State) : Extends o s (changeCode o t s) := by
  rcases changeCode_cases o t s with ⟨_, he⟩ | ⟨_, _, he⟩ | ⟨_, _, c, hc, he⟩ <;> rw [he]
  · exact Extends.refl o s
  · exact Extends.flagErr o s
  · exact (Extends.appendSymbol o (Nat.le_trans (transitionSym_range hc).2 (by omega)) s).setCode t

/-- STOP is left by no change of code set (R154). -/
theorem changeCode_stop (o : BitOrder) (t : CodeSet) {s : State} (h : s.code = .stop) :
    (changeCode o t s).code = .stop := by
  rcases changeCode_cases o t s with ⟨_, he⟩ | ⟨_, _, he⟩ | ⟨_, hl, c, hc, he⟩ <;> rw [he]
  · exact h
  · exact h
  · simp [illegalTransition, h] at hl

/-! ### ByteStep, Append -/

theorem compactAt_digits {txt : Memory} {len p : Nat} {fix : Fix} {code : CodeSet}
    (h : compactAt txt len p fix code = true) :
    p + 1 < len ∧ isDigit (some (txt.read p)) = true ∧ isDigit (some (txt.read (p + 1))) = true ∧ fix = .auto := by
  simp only [compactAt, compact, Bool.and_eq_true, decide_eq_true_eq] at h
  obtain ⟨⟨⟨h0, h1⟩, h2⟩, _⟩ := h
  by_cases hp : p + 1 < len
  · have hp' : p < len := by omega
    simp only [txtByte, hp, hp', if_true] at h0 h1
    exact ⟨hp, h0, h1, h2⟩
  · simp [txtByte, hp, isDigit] at h1

/-- The three cases of `ByteStep` (R158). -/
theorem byteStep_cases (o : BitOrder) (fix : Fix) (len : Nat) (s : State) :
    (unencodable (s.txt.read s.pos) = true ∧ byteStep o fix len s = s.flagErr.setPos (s.pos + 1)) ∨
    (unencodable (s.txt.read s.pos) = false ∧ compactAt s.txt len s.pos fix s.code = true ∧
      byteStep o fix len s =
        (appendSymbol o (pairSym (s.txt.read s.pos) (s.txt.read (s.pos + 1))) (changeCode o .c s)).setPos
          (s.pos + 2)) ∨
    (unencodable (s.txt.read s.pos) = false ∧ compactAt s.txt len s.pos fix s.code = false ∧
      byteStep o fix len s =
        (appendSymbol o (charSym (s.txt.read s.pos))
          (changeCode o (target Config.bReqLo (s.txt.read s.pos) fix) s)).setPos (s.pos + 1)) := by
  unfold byteStep
  by_cases h : unencodable (s.txt.read s.pos) = true
  · exact .inl ⟨h, by simp [h]⟩
  · simp only [Bool.not_eq_true] at h
    by_cases hc : compactAt s.txt len s.pos fix s.code = true
    · exact .inr (.inl ⟨h, hc, by simp [h, hc]⟩)
    · simp only [Bool.not_eq_true] at hc
      exact .inr (.inr ⟨h, hc, by simp [h, hc]⟩)

theorem Extends.byteStep (o : BitOrder) (fix : Fix) (len : Nat) (s : State) : Extends o s (byteStep o fix len s) := by
  rcases byteStep_cases o fix len s with ⟨_, he⟩ | ⟨_, hc, he⟩ | ⟨hu, _, he⟩ <;> rw [he]
  · exact (Extends.flagErr o s).setPos _
  · obtain ⟨_, h0, h1, _⟩ := compactAt_digits hc
    exact ((Extends.changeCode o _ s).trans
      (Extends.appendSymbol o (Nat.le_trans (pairSym_le h0 h1) (by omega)) _)).setPos _
  · exact ((Extends.changeCode o _ s).trans
      (Extends.appendSymbol o (Nat.le_trans (charSym_le hu) (by omega)) _)).setPos _

/-- A byte step advances TXTPOS by 1 or 2, never past the end of the text (R158). -/
theorem byteStep_pos (o : BitOrder) (fix : Fix) (len : Nat) {s : State} (h : s.pos < len) :
    s.pos < (byteStep o fix len s).pos ∧ (byteStep o fix len s).pos ≤ len := by
  rcases byteStep_cases o fix len s with ⟨_, he⟩ | ⟨_, hc, he⟩ | ⟨_, _, he⟩ <;> rw [he, State.pos_setPos]
  · omega
  · have := (compactAt_digits hc).1; omega
  · omega

/-- A byte step counts at most two symbols per byte of text it consumes (R33). -/
theorem byteStep_nsym_le (o : BitOrder) (fix : Fix) (len : Nat) (s : State) :
    (byteStep o fix len s).nsym + 2 * s.pos ≤ s.nsym + 2 * (byteStep o fix len s).pos := by
  rcases byteStep_cases o fix len s with ⟨_, he⟩ | ⟨_, _, he⟩ | ⟨_, _, he⟩ <;>
    rw [he, State.pos_setPos] <;> simp only [State.setPos_nsym, State.flagErr_nsym]
  · omega
  · have h1 := appendSymbol_nsym_le o (pairSym (s.txt.read s.pos) (s.txt.read (s.pos + 1))) (changeCode o .c s)
    have h2 := changeCode_nsym_le o .c s
    omega
  · have h1 := appendSymbol_nsym_le o (charSym (s.txt.read s.pos))
      (changeCode o (target Config.bReqLo (s.txt.read s.pos) fix) s)
    have h2 := changeCode_nsym_le o (target Config.bReqLo (s.txt.read s.pos) fix) s
    omega

theorem byteStep_stop (o : BitOrder) (fix : Fix) (len : Nat) {s : State} (h : s.code = .stop) :
    (byteStep o fix len s).code = .stop := by
  rcases byteStep_cases o fix len s with ⟨_, he⟩ | ⟨_, _, he⟩ | ⟨_, _, he⟩ <;> rw [he]
  · exact h
  · simpa using changeCode_stop o _ h
  · simpa using changeCode_stop o _ h

/-- The loop induction: a relation that holds of equal states, composes and covers one byte step covers the loop. -/
theorem appendLoop_induct {R : State → State → Prop} (hr : ∀ s, R s s) (ht : ∀ s t u, R s t → R t u → R s u)
    (o : BitOrder) (fix : Fix) (len : Nat) (hs : ∀ s, s.pos < len → R s (byteStep o fix len s)) (fuel : Nat)
    (s : State) : R s (appendLoop o fix len fuel s) := by
  induction fuel generalizing s with
  | zero => exact hr s
  | succ fuel ih =>
    rw [appendLoop]
    split
    · exact ht _ _ _ (hs s ‹_›) (ih _)
    · exact hr s

theorem Extends.appendLoop (o : BitOrder) (fix : Fix) (len fuel : Nat) (s : State) :
    Extends o s (appendLoop o fix len fuel s) :=
  appendLoop_induct (Extends.refl o) (fun _ _ _ => Extends.trans) o fix len
    (fun s _ => Extends.byteStep o fix len s) fuel s

/-- With `LEN` steps the loop reaches the end of the text (R159). -/
theorem appendLoop_pos (o : BitOrder) (fix : Fix) (len fuel : Nat) {s : State} (h : len ≤ s.pos + fuel) :
    len ≤ (appendLoop o fix len fuel s).pos := by
  induction fuel generalizing s with
  | zero => exact h
  | succ fuel ih =>
    rw [appendLoop]
    split
    · have := (byteStep_pos o fix len ‹_›).1
      exact ih (by omega)
    · omega

theorem appendLoop_nsym_le (o : BitOrder) (fix : Fix) (len fuel : Nat) (s : State) (h : s.pos ≤ len) :
    (appendLoop o fix len fuel s).nsym + 2 * s.pos ≤ s.nsym + 2 * len := by
  induction fuel generalizing s with
  | zero => rw [appendLoop]; omega
  | succ fuel ih =>
    rw [appendLoop]
    split
    · have h1 := byteStep_nsym_le o fix len s
      have h2 := byteStep_pos o fix len ‹_›
      have h3 := ih (byteStep o fix len s) h2.2
      omega
    · omega

/-- An APPEND of `len` bytes counts at most `2 * len` symbols (R33). -/
theorem append_nsym_le (o : BitOrder) (fix : Fix) (len : Nat) (s : State) :
    (append o fix len s).nsym ≤ s.nsym + 2 * len := by
  have := appendLoop_nsym_le o fix len len (s.setPos 0) (by simp)
  simpa [append] using this

theorem Extends.append (o : BitOrder) (fix : Fix) (len : Nat) (s : State) : Extends o s (append o fix len s) :=
  (((Extends.refl o s).setPos 0).trans (Extends.appendLoop o fix len len _)).clearPos

@[simp] theorem append_txtpos (o : BitOrder) (fix : Fix) (len : Nat) (s : State) :
    (append o fix len s).txtpos = none := rfl

theorem append_stop (o : BitOrder) (fix : Fix) (len : Nat) {s : State} (h : s.code = .stop) :
    (append o fix len s).code = .stop := by
  have := appendLoop_induct (R := fun s t => s.code = .stop → t.code = .stop) (fun _ h => h)
    (fun _ _ _ h1 h2 h => h2 (h1 h)) o fix len (fun s _ h => byteStep_stop o fix len h) len (s.setPos 0)
  simpa [append] using this h

/-! ### Finalize -/

theorem finalize_stop (o : BitOrder) {s : State} (h : s.code = .stop) : finalize o s = s := by
  simp [finalize, h]

theorem finalize_running (o : BitOrder) {s : State} (h : s.code ≠ .stop) :
    finalize o s = (appendSymbol o stopSym (appendCheck o (ensureStarted o s))).setCode .stop := by
  simp [finalize, h]

@[simp] theorem finalize_code (o : BitOrder) (s : State) : (finalize o s).code = .stop := by
  by_cases h : s.code = .stop
  · rw [finalize_stop o h, h]
  · rw [finalize_running o h]; rfl

theorem Extends.ensureStarted (o : BitOrder) (s : State) : Extends o s (ensureStarted o s) := by
  unfold Machine.ensureStarted
  split
  · exact Extends.changeCode o .b s
  · exact Extends.refl o s

theorem Extends.appendCheck (o : BitOrder) (s : State) : Extends o s (appendCheck o s) :=
  Extends.appendSymbol o (by have := s.chk.isLt; omega) s

theorem Extends.finalize (o : BitOrder) (s : State) : Extends o s (finalize o s) := by
  by_cases h : s.code = .stop
  · rw [finalize_stop o h]; exact Extends.refl o s
  · rw [finalize_running o h]
    exact (((Extends.ensureStarted o s).trans (Extends.appendCheck o _)).trans
      (Extends.appendSymbol o (by decide) _)).setCode .stop

@[simp] theorem finalize_txtpos (o : BitOrder) (s : State) : (finalize o s).txtpos = s.txtpos := by
  by_cases h : s.code = .stop
  · rw [finalize_stop o h]
  · rw [finalize_running o h]
    simp only [State.setCode_txtpos, appendSymbol_txtpos, appendCheck, ensureStarted]
    split <;> simp

theorem finalize_nsym_le (o : BitOrder) (s : State) : (finalize o s).nsym ≤ s.nsym + 3 := by
  by_cases h : s.code = .stop
  · rw [finalize_stop o h]; omega
  · rw [finalize_running o h, State.setCode_nsym]
    have h1 := appendSymbol_nsym_le o stopSym (appendCheck o (ensureStarted o s))
    have h2 := appendSymbol_nsym_le o (ensureStarted o s).chk.val (ensureStarted o s)
    have h3 : (ensureStarted o s).nsym ≤ s.nsym + 1 := by
      unfold ensureStarted
      split
      · exact changeCode_nsym_le o .b s
      · omega
    unfold appendCheck at h1 ⊢
    omega

/-! ### ENCODE -/

theorem Extends.quiet (o : BitOrder) (n : Nat) (s : State) : Extends o s (quiet o n s) :=
  Extends.writeAll o _ s

/-- ENCODE extends the state its run-reset leaves (R192). -/
theorem Extends.encodeRun (o : BitOrder) (fix : Fix) (qz len : Nat) (s : State) :
    Extends o s.runReset (encodeRun o fix qz len s) :=
  (((Extends.quiet o qz _).trans (Extends.append o fix len _)).trans (Extends.finalize o _)).trans
    (Extends.quiet o qz _)

@[simp] theorem encodeRun_code (o : BitOrder) (fix : Fix) (qz len : Nat) (s : State) :
    (encodeRun o fix qz len s).code = .stop := by
  simp [encodeRun, quiet_eq]

@[simp] theorem encodeRun_txtpos (o : BitOrder) (fix : Fix) (qz len : Nat) (s : State) :
    (encodeRun o fix qz len s).txtpos = none := by
  simp [encodeRun, quiet_eq]

end Sys2Proof.Machine
end

