-- ==== Sys2Proof/Laws/PerInstr.lean ====
section
/-! SUPPORT. Statements about every command, one lemma per constructor. -/

namespace Sys2Proof.Laws.EncodeOpcode

/-- The opcode of a command (R82). -/
def opcodeOf : Instr → Nat
  | .init _ => 0x1
  | .wrmod _ _ => 0x2
  | .quiet _ => 0x3
  | .chcode _ => 0x4
  | .apsym _ => 0x5
  | .append _ _ => 0x6
  | .final => 0x7
  | .encode _ _ _ => 0x8
  | .rdreg _ => 0x9
  | .rdmod _ => 0xA

/-- The word of a command carries its opcode in bits 31:28, and no operand reaches it (R80, R82). -/
def Statement (i : Instr) : Prop := (opc (encode i)).toNat = opcodeOf i

theorem of_number {i : Instr} (h : encodeNat i / 2 ^ 28 = opcodeOf i) : Statement i := by
  rw [Statement, opc_toNat, encode_toNat]
  exact h

theorem init (cap : BitVec 24) : Statement (.init cap) :=
  of_number (by have := cap.isLt; simp only [encodeNat, opcodeOf]; omega)

theorem wrmod (pat : BitVec 16) (width : BitVec 5) : Statement (.wrmod pat width) :=
  of_number (by have := pat.isLt; have := width.isLt; simp only [encodeNat, opcodeOf]; omega)

theorem quiet (n : BitVec 16) : Statement (.quiet n) :=
  of_number (by have := n.isLt; simp only [encodeNat, opcodeOf]; omega)

theorem chcode (tgt : CodeSet) : Statement (.chcode tgt) :=
  of_number (by have := tgt.number_lt; simp only [encodeNat, opcodeOf]; omega)

theorem apsym (sym : BitVec 7) : Statement (.apsym sym) :=
  of_number (by have := sym.isLt; simp only [encodeNat, opcodeOf]; omega)

theorem append (fix : Fix) (len : BitVec 16) : Statement (.append fix len) :=
  of_number (by have := fix.number_lt; have := len.isLt; simp only [encodeNat, opcodeOf]; omega)

theorem final : Statement .final := of_number (by decide)

theorem encode (fix : Fix) (qz : BitVec 8) (len : BitVec 16) : Statement (.encode fix qz len) :=
  of_number (by
    have := fix.number_lt; have := qz.isLt; have := len.isLt
    simp only [encodeNat, opcodeOf]; omega)

theorem rdreg (reg : RegSel) : Statement (.rdreg reg) :=
  of_number (by have := reg.number_lt; simp only [encodeNat, opcodeOf]; omega)

theorem rdmod (idx : BitVec 28) : Statement (.rdmod idx) :=
  of_number (by have := idx.isLt; simp only [encodeNat, opcodeOf]; omega)

end Sys2Proof.Laws.EncodeOpcode
end

