-- ==== Sys2Proof/Laws/Policy.lean ====
section
/-! SUPPORT. The register machine against the symbol sequence of a text (R155 to R160, R162): a run whose only errors are
overflows leaves BUF, CURSOR and ERR exactly as if the modules of its symbols had been offered to the sink one after the
other, and CHK and NSYM as the checksum law says. -/

namespace Sys2Proof.Machine

/-! ### States that agree on the sink -/

/-- Two states that agree on everything the sink reads or writes. -/
structure SinkEq (s t : State) : Prop where
  buf : s.buf = t.buf
  cursor : s.cursor = t.cursor
  err : s.err = t.err
  cap : s.cap = t.cap

theorem SinkEq.refl (s : State) : SinkEq s s := ⟨rfl, rfl, rfl, rfl⟩

theorem SinkEq.trans {s t u : State} (h1 : SinkEq s t) (h2 : SinkEq t u) : SinkEq s u :=
  ⟨h1.buf.trans h2.buf, h1.cursor.trans h2.cursor, h1.err.trans h2.err, h1.cap.trans h2.cap⟩

theorem SinkEq.symm {s t : State} (h : SinkEq s t) : SinkEq t s :=
  ⟨h.buf.symm, h.cursor.symm, h.err.symm, h.cap.symm⟩

theorem SinkEq.writeModule (o : BitOrder) (m : Module) {s t : State} (h : SinkEq s t) :
    SinkEq (writeModule o m s) (writeModule o m t) := by
  rcases writeModule_cases o m s with ⟨h1, he⟩ | ⟨h1, he⟩ <;>
    rcases writeModule_cases o m t with ⟨h2, hf⟩ | ⟨h2, hf⟩ <;>
    rw [h.cursor, h.cap] at h1 <;> rw [he, hf] <;> first | omega | skip
  · exact ⟨by simp [h.buf, h.cursor], by simp [h.cursor], h.err, h.cap⟩
  · exact ⟨h.buf, h.cursor, rfl, h.cap⟩

/-- What the sink does depends only on BUF, CURSOR, ERR and CAP. -/
theorem SinkEq.writeAll (o : BitOrder) (ms : List Module) {s t : State} (h : SinkEq s t) :
    SinkEq (writeAll o ms s) (writeAll o ms t) := by
  induction ms generalizing s t with
  | nil => exact h
  | cons m ms ih => exact ih (h.writeModule o m)

theorem SinkEq.flagErr {s : State} (he : s.err = true) : SinkEq s.flagErr s := by
  constructor
  · rfl
  · rfl
  · rw [he]; rfl
  · rfl

/-- On a full buffer with ERR set the sink changes nothing (R132). -/
theorem writeAll_stuck (o : BitOrder) (ms : List Module) {s : State} (he : s.err = true)
    (hf : 8 * s.cap ≤ s.cursor) : SinkEq (writeAll o ms s) s := by
  induction ms generalizing s with
  | nil => exact SinkEq.refl s
  | cons m ms ih =>
    rcases writeModule_cases o m s with ⟨h, _⟩ | ⟨_, hw⟩
    · omega
    · rw [writeAll, hw]
      have h := ih (s := s.flagErr) (by simp) (by simpa using hf)
      exact h.trans (SinkEq.flagErr he)

/-! ### Runs whose only errors are overflows -/

/-- ERR, if set, comes from an overflow: the buffer is full. -/
def OverflowOnly (s : State) : Prop := s.err = true → 8 * s.cap ≤ s.cursor

theorem OverflowOnly.writeAll {o : BitOrder} (ms : List Module) {s : State} (h : OverflowOnly s) :
    OverflowOnly (writeAll o ms s) := by
  intro he
  rw [writeAll_err, errAfter_iff] at he
  rw [writeAll_cap, writeAll_cursor]
  unfold State.cursorAfter
  rcases he with he | he
  · have := h he; omega
  · omega

/-- `t` is as if the modules of the symbols `syms` had been offered to the sink in `s`; NSYM and CHK have counted the
accepted ones, none if ERR was set, and all of them if no overflow has happened (R150, R162). -/
structure Emits (o : BitOrder) (s t : State) (syms : List Nat) : Prop where
  sink : SinkEq t (writeAll o (symbolModules syms) s)
  count : s.err = false → t.nsym = s.nsym + s.accepts syms.length ∧
    t.chk.val = (s.chk.val + weightedFrom s.nsym (syms.take (s.accepts syms.length))) % 103
  refused : s.err = true → t.nsym = s.nsym ∧ t.chk = s.chk
  nsym : t.err = false → t.nsym = s.nsym + syms.length
  chk : t.err = false → t.chk.val = (s.chk.val + weightedFrom s.nsym syms) % 103

theorem weightedFrom_append (k : Nat) (cs ds : List Nat) :
    weightedFrom k (cs ++ ds) = weightedFrom k cs + weightedFrom (k + cs.length) ds := by
  induction cs generalizing k with
  | nil => simp [weightedFrom]
  | cons c cs ih =>
    simp only [List.cons_append, weightedFrom, ih, List.length_cons]
    rw [show k + 1 + cs.length = k + (cs.length + 1) by omega]
    omega

theorem symbolModules_length {cs : List Nat} (h : ∀ c ∈ cs, c ≤ 105) : (symbolModules cs).length = 11 * cs.length := by
  induction cs with
  | nil => rfl
  | cons c cs ih =>
    have hrest := ih fun d hd => h d (List.mem_cons_of_mem c hd)
    have hhead := symModules_length (h c List.mem_cons_self)
    rw [symbolModules] at hrest ⊢
    rw [List.flatMap_cons, List.length_append, hrest, hhead, List.length_cons]
    omega

/-- After an overflow of the first `a` symbols no further one is accepted. -/
theorem accepts_add_overflow {s : State} {a : Nat} (h0 : s.err = false) (h : s.errAfter (11 * a) = true) (b : Nat) :
    s.accepts (a + b) = s.accepts a := by
  rw [errAfter_iff] at h
  simp only [h0, Bool.false_eq_true, false_or] at h
  unfold State.accepts Config.wSym
  omega

/-- While everything fits, the symbols accepted add up. -/
theorem accepts_add_fits {s t : State} {a : Nat} (h : s.errAfter (11 * a) = false) (hcap : t.cap = s.cap)
    (hcur : t.cursor = s.cursorAfter (11 * a)) (b : Nat) :
    s.accepts a = a ∧ s.accepts (a + b) = a + t.accepts b := by
  rw [Bool.eq_false_iff, ne_eq, errAfter_iff] at h
  unfold State.accepts Config.wSym
  rw [hcap, hcur]
  unfold State.cursorAfter
  omega

theorem accepts_le (s : State) (n : Nat) : s.accepts n ≤ n := Nat.min_le_left _ _

theorem Emits.nil (o : BitOrder) (s : State) : Emits o s s [] where
  sink := SinkEq.refl s
  count _ := by
    have := s.chk.isLt
    simp only [List.length_nil, List.take_nil, weightedFrom, State.accepts, Nat.zero_min]
    omega
  refused _ := ⟨rfl, rfl⟩
  nsym _ := rfl
  chk _ := by
    have := s.chk.isLt
    simp only [weightedFrom, Nat.add_zero]
    omega

theorem Emits.overflowOnly {o : BitOrder} {s t : State} {cs : List Nat} (h : Emits o s t cs)
    (hs : OverflowOnly s) : OverflowOnly t := by
  intro he
  have := OverflowOnly.writeAll (o := o) (symbolModules cs) hs (h.sink.err ▸ he)
  rw [h.sink.cap, h.sink.cursor]
  exact this

theorem Emits.err_mono {o : BitOrder} {s t : State} {cs : List Nat} (h : Emits o s t cs) (he : t.err = false) :
    s.err = false := by
  rw [h.sink.err, writeAll_err, Bool.eq_false_iff, ne_eq, errAfter_iff] at he
  simp only [not_or, Bool.not_eq_true] at he
  exact he.1

theorem Emits.trans {o : BitOrder} {s t u : State} {cs ds : List Nat} (hcs : ∀ c ∈ cs, c ≤ 105) (h1 : Emits o s t cs)
    (h2 : Emits o t u ds) : Emits o s u (cs ++ ds) where
  sink := by
    have := h2.sink.trans (h1.sink.writeAll o (symbolModules ds))
    rwa [← writeAll_append, symbolModules, symbolModules, ← List.flatMap_append] at this
  count h0 := by
    obtain ⟨hn, hk⟩ := h1.count h0
    have herr := h1.sink.err
    rw [writeAll_err, symbolModules_length hcs] at herr
    rw [List.length_append]
    by_cases ht : t.err = true
    · have ha := accepts_add_overflow h0 (herr ▸ ht) ds.length
      obtain ⟨hn', hk'⟩ := h2.refused ht
      rw [ha, hn', hk', List.take_append_of_le_length (accepts_le s _)]
      exact ⟨hn, hk⟩
    · simp only [Bool.not_eq_true] at ht
      have hcap := h1.sink.cap
      have hcur := h1.sink.cursor
      rw [writeAll_cap] at hcap
      rw [writeAll_cursor, symbolModules_length hcs] at hcur
      obtain ⟨ha, hab⟩ := accepts_add_fits (herr ▸ ht) hcap hcur ds.length
      obtain ⟨hn', hk'⟩ := h2.count ht
      rw [ha] at hn hk
      rw [hab, hn', hk', hk, hn, List.take_length_add_append, weightedFrom_append, List.take_length]
      constructor <;> omega
  refused h0 := by
    obtain ⟨hn, hk⟩ := h1.refused h0
    have ht : t.err = true := by rw [h1.sink.err, writeAll_err, errAfter_iff]; exact .inl h0
    obtain ⟨hn', hk'⟩ := h2.refused ht
    exact ⟨hn'.trans hn, hk'.trans hk⟩
  nsym he := by
    rw [h2.nsym he, h1.nsym (h2.err_mono he), List.length_append]; omega
  chk he := by
    rw [h2.chk he, h1.chk (h2.err_mono he), h1.nsym (h2.err_mono he), weightedFrom_append]
    omega

/-- On a full buffer with ERR set nothing is stored or counted, whatever the symbols. -/
theorem Emits.of_full {o : BitOrder} {s t : State} {cs : List Nat} (h : Emits o s t cs) (he : s.err = true)
    (hf : 8 * s.cap ≤ s.cursor) (ds : List Nat) : Emits o s t ds where
  sink := (h.sink.trans (writeAll_stuck o _ he hf)).trans (writeAll_stuck o _ he hf).symm
  count h0 := by rw [he] at h0; cases h0
  refused := h.refused
  nsym h0 := by have := h.err_mono h0; rw [he] at this; cases this
  chk h0 := by have := h.err_mono h0; rw [he] at this; cases this

/-- A refused symbol counts as offered when the refusal comes from an overflow. -/
theorem Emits.appendSymbol (o : BitOrder) (c : Nat) {s : State} (hs : OverflowOnly s) (hc : s.code ≠ .stop) :
    Emits o s (appendSymbol o c s) [c] := by
  have hm : symbolModules [c] = symModules c := by simp [symbolModules]
  by_cases he : s.err = true
  · rw [appendSymbol_inert o c (.inl he)]
    refine ⟨?_, fun h => by simp [h] at he, fun _ => ⟨rfl, rfl⟩, fun h => by simp at h, fun h => by simp at h⟩
    exact (SinkEq.flagErr he).trans (writeAll_stuck o (symbolModules [c]) he (hs he)).symm
  · rw [appendSymbol_accepted o c (by simpa using he) hc]
    have h1 : s.accepts [c].length = 1 := by unfold State.accepts; simp
    refine ⟨by rw [hm]; exact ⟨rfl, rfl, rfl, rfl⟩, fun _ => ?_, fun h => absurd h he, fun _ => by simp, fun _ => ?_⟩
    · rw [h1]; simp [weightedFrom]
    · simp [weightedFrom]

theorem Emits.setCode {o : BitOrder} {s t : State} {cs : List Nat} (h : Emits o s t cs) (x : CodeSet) :
    Emits o s (t.setCode x) cs := ⟨⟨h.sink.buf, h.sink.cursor, h.sink.err, h.sink.cap⟩, h.count, h.refused, h.nsym, h.chk⟩

theorem Emits.setPos {o : BitOrder} {s t : State} {cs : List Nat} (h : Emits o s t cs) (p : Nat) :
    Emits o s (t.setPos p) cs := ⟨⟨h.sink.buf, h.sink.cursor, h.sink.err, h.sink.cap⟩, h.count, h.refused, h.nsym, h.chk⟩

theorem Emits.clearPos {o : BitOrder} {s t : State} {cs : List Nat} (h : Emits o s t cs) :
    Emits o s t.clearPos cs := ⟨⟨h.sink.buf, h.sink.cursor, h.sink.err, h.sink.cap⟩, h.count, h.refused, h.nsym, h.chk⟩

theorem Emits.of_setPos {o : BitOrder} {s t : State} {cs : List Nat} {p : Nat} (h : Emits o (s.setPos p) t cs) :
    Emits o s t cs :=
  ⟨h.sink.trans (SinkEq.writeAll o _ ⟨rfl, rfl, rfl, rfl⟩), h.count, h.refused, h.nsym, h.chk⟩

theorem moveSyms_range {cur t : CodeSet} : ∀ c ∈ moveSyms cur t, c ≤ 105 := by
  intro c hc
  unfold moveSyms at hc
  split at hc
  · simp at hc
  · exact (transitionSym_range (Option.mem_toList.1 hc)).2

/-- A change to A, B or C from a running code set (R152). -/
theorem Emits.changeCode (o : BitOrder) {t : CodeSet} (ht : t = .a ∨ t = .b ∨ t = .c) {s : State}
    (hs : OverflowOnly s) (hc : s.code ≠ .stop) :
    Emits o s (changeCode o t s) (moveSyms s.code t) ∧ (changeCode o t s).code = t := by
  by_cases h : t = s.code
  · rw [moveSyms, if_pos h]
    have : Machine.changeCode o t s = s := by simp [Machine.changeCode, h]
    rw [this]
    exact ⟨Emits.nil o s, h.symm⟩
  · rcases changeCode_cases o t s with ⟨h', _⟩ | ⟨_, hl, _⟩ | ⟨_, _, c, hx, he⟩
    · exact absurd h' h
    · simp only [illegalTransition, Bool.or_eq_true, decide_eq_true_eq] at hl
      rcases ht with rfl | rfl | rfl <;> simp [hc] at hl
    · rw [moveSyms, if_neg h, hx, he]
      exact ⟨(Emits.appendSymbol o c hs hc).setCode t, rfl⟩

/-! ### The text -/

/-- The bytes of the text from position `p` on. -/
def textFrom (txt : Memory) (len p : Nat) : List Byte := (List.range' p (len - p)).map txt.read

theorem textFrom_cons (txt : Memory) {len p : Nat} (h : p < len) :
    textFrom txt len p = txt.read p :: textFrom txt len (p + 1) := by
  unfold textFrom
  rw [show len - p = (len - (p + 1)) + 1 by omega, List.range'_succ]
  simp

theorem textFrom_end (txt : Memory) {len p : Nat} (h : len ≤ p) : textFrom txt len p = [] := by
  simp [textFrom, Nat.sub_eq_zero_of_le h]

theorem textFrom_getElem? (txt : Memory) (len p k : Nat) : (textFrom txt len p)[k]? = txtByte txt len (p + k) := by
  unfold textFrom txtByte
  by_cases h : p + k < len
  · rw [if_pos h, List.getElem?_map, List.getElem?_range' (by omega)]
    simp
  · rw [if_neg h, List.getElem?_eq_none (by simp; omega)]

theorem text_eq (s : State) (len : Nat) : s.text len = textFrom s.txt len 0 := by
  simp [State.text, textFrom, List.range_eq_range']

theorem compactAt_eq (txt : Memory) (len p : Nat) (fix : Fix) (code : CodeSet) {L : List Byte}
    (hL : textFrom txt len p = L) :
    compactAt txt len p fix code =
      compact (isDigit L[0]?) (isDigit L[1]?) (isDigit L[2]?) (isDigit L[3]?) fix code := by
  subst hL
  simp only [textFrom_getElem?, compactAt, Nat.add_zero]

theorem target_running (lo : Nat) (b : Byte) (fix : Fix) : target lo b fix ≠ .stop := by
  rcases target_ne lo b fix with h | h | h <;> simp [h]

/-- The append loop emits the symbols of the rest of the text and ends in their code set (R158, R159). -/
theorem appendLoop_emits (o : BitOrder) (fix : Fix) (len fuel : Nat) {s : State} (hf : len ≤ s.pos + fuel)
    (henc : encodable (textFrom s.txt len s.pos)) (hs : OverflowOnly s) (hc : s.code ≠ .stop) :
    Emits o s (appendLoop o fix len fuel s) (textSymbols fix s.code (textFrom s.txt len s.pos)) ∧
    (appendLoop o fix len fuel s).code = textCode fix s.code (textFrom s.txt len s.pos) := by
  induction fuel generalizing s with
  | zero =>
    rw [textFrom_end _ (by omega)]
    exact ⟨by simpa [textSymbols, appendLoop] using Emits.nil o s, by simp [textCode, appendLoop]⟩
  | succ fuel ih =>
    rw [appendLoop]
    by_cases hp : s.pos < len
    · rw [if_pos hp]
      have hu : unencodable (s.txt.read s.pos) = false := henc _ (by rw [textFrom_cons _ hp]; simp)
      have hpos := byteStep_pos o fix len hp
      have htxt := (Extends.byteStep o fix len s).txt
      rcases byteStep_cases o fix len s with ⟨hu', _⟩ | ⟨_, hcp, he⟩ | ⟨_, hcp, he⟩
      · simp [hu] at hu'
      · have hp1 := (compactAt_digits hcp).1
        have h1 := Emits.changeCode o (t := .c) (by simp) hs hc
        have h2 := Emits.appendSymbol o (pairSym (s.txt.read s.pos) (s.txt.read (s.pos + 1)))
          (h1.1.overflowOnly hs) (by rw [h1.2]; simp)
        have hstep : Emits o s (byteStep o fix len s)
            (moveSyms s.code .c ++ [pairSym (s.txt.read s.pos) (s.txt.read (s.pos + 1))]) := by
          rw [he]; exact (h1.1.trans moveSyms_range h2).setPos _
        have hrange : ∀ c ∈ moveSyms s.code .c ++ [pairSym (s.txt.read s.pos) (s.txt.read (s.pos + 1))], c ≤ 105 := by
          obtain ⟨_, h0, h1, _⟩ := compactAt_digits hcp
          have := pairSym_le h0 h1
          intro c hc
          rcases List.mem_append.1 hc with h | h
          · exact moveSyms_range c h
          · rw [List.mem_singleton.1 h]; omega
        have hcode : (byteStep o fix len s).code = .c := by rw [he]; simp [h1.2]
        have hposeq : (byteStep o fix len s).pos = s.pos + 2 := by rw [he]; rfl
        have hrest := ih (s := byteStep o fix len s) (by omega)
          (by
            rw [htxt, hposeq]
            intro b hb
            exact henc b (by rw [textFrom_cons _ hp, textFrom_cons _ hp1]; simp [hb]))
          (hstep.overflowOnly hs) (by rw [hcode]; simp)
        rw [htxt, hposeq, hcode] at hrest
        have hL : textFrom s.txt len s.pos = s.txt.read s.pos :: s.txt.read (s.pos + 1) ::
            textFrom s.txt len (s.pos + 2) := by rw [textFrom_cons _ hp, textFrom_cons _ hp1]
        have hcomp := hcp
        rw [compactAt_eq s.txt len s.pos fix s.code hL] at hcomp
        simp only [List.getElem?_cons_zero, List.getElem?_cons_succ] at hcomp
        rw [hL, textSymbols, textCode, if_pos hcomp, if_pos hcomp]
        exact ⟨by simpa using hstep.trans hrange hrest.1, hrest.2⟩
      · have h1 := Emits.changeCode o (target_ne Config.bReqLo (s.txt.read s.pos) fix) hs hc
        have h2 := Emits.appendSymbol o (charSym (s.txt.read s.pos))
          (h1.1.overflowOnly hs) (by rw [h1.2]; exact target_running _ _ _)
        have hstep : Emits o s (byteStep o fix len s)
            (moveSyms s.code (target Config.bReqLo (s.txt.read s.pos) fix) ++ [charSym (s.txt.read s.pos)]) := by
          rw [he]; exact (h1.1.trans moveSyms_range h2).setPos _
        have hrange : ∀ c ∈ moveSyms s.code (target Config.bReqLo (s.txt.read s.pos) fix) ++
            [charSym (s.txt.read s.pos)], c ≤ 105 := by
          have := charSym_le hu
          intro c hc
          rcases List.mem_append.1 hc with h | h
          · exact moveSyms_range c h
          · rw [List.mem_singleton.1 h]; omega
        have hcode : (byteStep o fix len s).code = target Config.bReqLo (s.txt.read s.pos) fix := by
          rw [he]; simp [h1.2]
        have hposeq : (byteStep o fix len s).pos = s.pos + 1 := by rw [he]; rfl
        have hrest := ih (s := byteStep o fix len s) (by omega)
          (by
            rw [htxt, hposeq]
            intro b hb
            exact henc b (by rw [textFrom_cons _ hp]; simp [hb]))
          (hstep.overflowOnly hs) (by rw [hcode]; exact target_running _ _ _)
        rw [htxt, hposeq, hcode] at hrest
        have hL := textFrom_cons s.txt hp
        have hcomp := hcp
        rw [compactAt_eq s.txt len s.pos fix s.code hL] at hcomp
        rw [hL]
        cases hr : textFrom s.txt len (s.pos + 1) with
        | nil =>
          rw [hr] at hrest
          simp only [textSymbols, textCode] at hrest ⊢
          exact ⟨by simpa using hstep.trans hrange hrest.1, hrest.2⟩
        | cons b1 rest =>
          rw [hr] at hrest hcomp
          simp only [List.getElem?_cons_zero, List.getElem?_cons_succ] at hcomp
          rw [textSymbols, textCode, if_neg (by simp [hcomp]), if_neg (by simp [hcomp])]
          exact ⟨by simpa using hstep.trans hrange hrest.1, hrest.2⟩
    · rw [if_neg hp, textFrom_end _ (by omega)]
      exact ⟨by simpa [textSymbols] using Emits.nil o s, by simp [textCode]⟩

/-- `Append` emits the symbols of the text (R159). -/
theorem append_emits (o : BitOrder) (fix : Fix) (len : Nat) {s : State} (henc : encodable (s.text len))
    (hs : OverflowOnly s) (hc : s.code ≠ .stop) :
    Emits o s (append o fix len s) (textSymbols fix s.code (s.text len)) ∧
    (append o fix len s).code = textCode fix s.code (s.text len) := by
  rw [text_eq] at henc ⊢
  have h := appendLoop_emits o fix len len (s := s.setPos 0) (by simp) (by simpa using henc) hs hc
  simp only [State.setPos_code, State.setPos_txt, State.pos_setPos] at h
  exact ⟨h.1.of_setPos.clearPos, h.2⟩

/-- The symbols of an encodable text are those of 11 modules (R100). -/
theorem textSymbols_range {fix : Fix} {cur : CodeSet} {L : List Byte} (h : encodable L) :
    ∀ c ∈ textSymbols fix cur L, c ≤ 105 := by
  have single : ∀ {b : Byte} {cur t : CodeSet}, unencodable b = false → ∀ c ∈ moveSyms cur t ++ [charSym b], c ≤ 105 := by
    intro b cur t hb c hc
    have := charSym_le hb
    rcases List.mem_append.1 hc with h | h
    · exact moveSyms_range c h
    · rw [List.mem_singleton.1 h]; omega
  fun_induction textSymbols with
  | case1 => simp
  | case2 cur b => exact single (h b (by simp))
  | case3 cur b0 b1 rest hcp ih =>
    have hd : isDigit (some b0) = true ∧ isDigit (some b1) = true := by
      simp only [compact, Bool.and_eq_true] at hcp
      exact hcp.1.1
    have := pairSym_le hd.1 hd.2
    intro c hc
    rcases List.mem_append.1 hc with h' | h'
    · exact moveSyms_range c h'
    · rcases List.mem_cons.1 h' with h' | h'
      · omega
      · exact ih (fun b hb => h b (by simp [hb])) c h'
  | case4 cur b0 b1 rest hcp ih =>
    intro c hc
    rcases List.mem_append.1 hc with h' | h'
    · exact moveSyms_range c h'
    · rcases List.mem_cons.1 h' with h' | h'
      · exact single (cur := cur) (t := cur) (h b0 (by simp)) c (by simp [h'])
      · exact ih (fun b hb => h b (by simp [List.mem_cons.1 hb])) c h'

theorem textCode_running {fix : Fix} {cur : CodeSet} {L : List Byte} (h : cur ≠ .stop) :
    textCode fix cur L ≠ .stop := by
  fun_induction textCode with
  | case1 => exact h
  | case2 => exact target_running _ _ _
  | case3 _ _ _ _ _ ih => exact ih (by simp)
  | case4 _ _ _ _ _ ih => exact ih (target_running _ _ _)

/-- After a text that is not empty the encoder has started (R159). -/
theorem textCode_started {fix : Fix} {cur : CodeSet} {L : List Byte} (h : cur ≠ .none ∨ L ≠ []) :
    textCode fix cur L ≠ .none := by
  have ht : ∀ b, target Config.bReqLo b fix ≠ .none := by
    intro b; rcases target_ne Config.bReqLo b fix with h | h | h <;> simp [h]
  fun_induction textCode with
  | case1 => simpa using h
  | case2 => exact ht _
  | case3 _ _ _ _ _ ih => exact ih (.inl (by simp))
  | case4 _ _ _ _ _ ih => exact ih (.inl (ht _))

/-- `Finalize` of a started run emits the check symbol and STOP (R160). -/
theorem finalize_emits (o : BitOrder) {s : State} (hs : OverflowOnly s) (hc : s.code ≠ .stop)
    (hn : s.code ≠ .none) : Emits o s (finalize o s) [s.chk.val, stopSym] := by
  rw [finalize_running o hc]
  have hst : ensureStarted o s = s := by simp [ensureStarted, hn]
  rw [hst]
  have h1 := Emits.appendSymbol o s.chk.val hs hc
  have h2 := Emits.appendSymbol o stopSym (h1.overflowOnly hs) (by simpa using hc)
  exact (h1.trans (by have := s.chk.isLt; simp; omega) h2).setCode .stop

theorem bodySymbols_range {fix : Fix} {L : List Byte} (h : encodable L) : ∀ c ∈ bodySymbols fix L, c ≤ 105 := by
  unfold bodySymbols
  split
  · simp
  · exact textSymbols_range h

/-- A whole run from a fresh state emits the symbols of `runSymbols` (R163). -/
theorem run_emits (o : BitOrder) (fix : Fix) (len : Nat) {s : State} (henc : encodable (s.text len))
    (hs : OverflowOnly s) (hc : s.code = .none) (hk : s.chk = 0) (hn : s.nsym = 0) :
    Emits o s (finalize o (append o fix len s)) (runSymbols fix (s.text len)) := by
  -- the state before the check symbol, its symbols, and that it has started
  have hbody : ∃ t, Emits o s t (bodySymbols fix (s.text len)) ∧ t.code ≠ .stop ∧ t.code ≠ .none ∧
      finalize o (append o fix len s) = finalize o t := by
    have ha := append_emits o fix len henc hs (by simp [hc])
    rw [hc] at ha
    by_cases hL : s.text len = []
    · have h0 : Emits o s (append o fix len s) [] := by simpa [hL, textSymbols] using ha.1
      have hcode : (append o fix len s).code = .none := by rw [ha.2, hL]; simp [textCode]
      have h1 := Emits.changeCode o (t := .b) (by simp) (h0.overflowOnly hs) (by simp [hcode])
      refine ⟨changeCode o .b (append o fix len s), ?_, by simp [h1.2], by simp [h1.2], ?_⟩
      · have := h0.trans (by simp) h1.1
        rw [hcode] at this
        simpa [bodySymbols, hL, moveSyms, transitionSym, startSym] using this
      · rw [finalize_running o (by simp [hcode]), finalize_running o (by simp [h1.2])]
        simp [ensureStarted, hcode, h1.2]
    · refine ⟨append o fix len s, ?_, ?_, ?_, rfl⟩
      · simpa [bodySymbols, hL] using ha.1
      · rw [ha.2]; exact textCode_running (by simp)
      · rw [ha.2]; exact textCode_started (.inr hL)
  obtain ⟨t, ht, h1, h2, he⟩ := hbody
  rw [he, runSymbols]
  have hfin := finalize_emits o (ht.overflowOnly hs) h1 h2
  refine ht.trans (bodySymbols_range henc) ?_
  by_cases hterr : t.err = true
  · exact hfin.of_full hterr (ht.overflowOnly hs hterr) _
  · simp only [Bool.not_eq_true] at hterr
    have hchk : t.chk.val = checkSymbol fix (s.text len) := by
      rw [ht.chk hterr, hk, hn]
      simp [checkSymbol]
    rwa [hchk] at hfin

end Sys2Proof.Machine
end

