-- ==== Sys2Proof/Tests/Slice0.lean ====
section
/-! SUPPORT. The model's tests. Expected results are the spec's own: the words of 95_test_vectors.md (W rows) and of the
formats of R81, the examples of the command rules, and the E rows with their bytes under both bit orders. After them one
witness per obligation that has hypotheses: a concrete state and operands that meet all of them. -/

namespace Sys2Proof.Tests

open Sys2Proof Sys2Proof.Machine

/-! ### Helpers -/

/-- A fresh run of capacity `cap` over a buffer and a text. -/
def fresh (cap : Nat) (buf text : List Byte) : State :=
  { State.reset with cap := cap, buf := Memory.writeBytes [] 0 buf, txt := Memory.writeBytes [] 0 text }

/-- The first `n` bytes of BUF. -/
def bufBytes (n : Nat) (s : State) : List Byte := (List.range n).map s.buf.read

/-- A view of the state a command leaves. -/
def seen {α : Type} (f : State → α) : Host.Outcome State Fault Refusal → Option α
  | .next t => some (f t)
  | .fault _ => none
  | .refused _ => none

/-- The registers CODE, CHK, NSYM, CURSOR and ERR. -/
def regs (s : State) : CodeSet × Nat × Nat × Nat × Bool := (s.code, s.chk.val, s.nsym, s.cursor, s.err)

def refuses (w : Word) : Bool :=
  match decode w with
  | .ok _ => false
  | .error _ => true

/-! ### WellFormed: each check refuses an ill-formed term -/

theorem test_wf_refuses_width_17 : Instr.wf (.wrmod 0x133 17) = false := by decide
theorem test_wf_accepts_width_16 : Instr.wf (.wrmod 0x133 16) = true := by decide
theorem test_wf_refuses_symbol_107 : Instr.wf (.apsym 107) = false := by decide
theorem test_wf_accepts_symbol_106 : Instr.wf (.apsym 106) = true := by decide

/-! ### Decoding: words written out bit by bit from the formats of R81 -/

-- I: 0001 | 0000 reserved | CAP = 1010 0101 0000 0000 0000 0110
theorem test_decode_init : decode 0b00010000101001010000000000000110#32 = .ok (.init 0xA50006) := by decide
-- W: 0010 | 0000000 reserved | WIDTH = 01011 | PAT = 0000 0001 0011 0011
theorem test_decode_wrmod : decode 0b00100000000010110000000100110011#32 = .ok (.wrmod 0x133 11) := by decide
-- Q: 0011 | 12 reserved | N = 1000 0000 0000 1010
theorem test_decode_quiet : decode 0b00110000000000001000000000001010#32 = .ok (.quiet 0x800A) := by decide
-- C: 0100 | 25 reserved | TGT = 000 to 100
theorem test_decode_chcode :
    decode 0b01000000000000000000000000000000#32 = .ok (.chcode .none) ∧
    decode 0b01000000000000000000000000000001#32 = .ok (.chcode .a) ∧
    decode 0b01000000000000000000000000000010#32 = .ok (.chcode .b) ∧
    decode 0b01000000000000000000000000000011#32 = .ok (.chcode .c) ∧
    decode 0b01000000000000000000000000000100#32 = .ok (.chcode .stop) := by decide
-- S: 0101 | 21 reserved | SYM = 1101000
theorem test_decode_apsym : decode 0b01010000000000000000000001101000#32 = .ok (.apsym 104) := by decide
-- T: 0110 | 0 | FIX = 000 to 011 | 8 reserved | LEN = 1000 0000 0000 0010
theorem test_decode_append :
    decode 0b01100000000000001000000000000010#32 = .ok (.append .auto 0x8002) ∧
    decode 0b01100001000000001000000000000010#32 = .ok (.append .a 0x8002) ∧
    decode 0b01100010000000001000000000000010#32 = .ok (.append .b 0x8002) ∧
    decode 0b01100011000000001000000000000010#32 = .ok (.append .c 0x8002) := by decide
-- N: 0111 | 28 reserved
theorem test_decode_final : decode 0b01110000000000000000000000000000#32 = .ok .final := by decide
-- E: 1000 | 0 | FIX = 010 | QZ = 1000 0001 | LEN = 0100 0000 0000 0011
theorem test_decode_encode : decode 0b10000010100000010100000000000011#32 = .ok (.encode .b 0x81 0x4003) := by decide
-- R: 1001 | 25 reserved | REG = 000 to 011
theorem test_decode_rdreg :
    decode 0b10010000000000000000000000000000#32 = .ok (.rdreg .cursor) ∧
    decode 0b10010000000000000000000000000001#32 = .ok (.rdreg .status) ∧
    decode 0b10010000000000000000000000000010#32 = .ok (.rdreg .nsym) ∧
    decode 0b10010000000000000000000000000011#32 = .ok (.rdreg .cap) := by decide
-- M: 1010 | IDX = 1000 0000 0000 0000 0000 0010 1101
theorem test_decode_rdmod : decode 0b10101000000000000000000000101101#32 = .ok (.rdmod 0x800002D) := by decide

/-- The illegal words of 95_test_vectors.md, W13 to W24. -/
theorem test_decode_refuses :
    ([0x00000000, 0xB0000000, 0xF0000000, 0x11000000, 0x20200000, 0x20110000, 0x30010000, 0x40000005, 0x40000008,
      0x5000006B, 0x50000080, 0x64000000, 0x68000000, 0x60010000, 0x70000001, 0x84000000, 0x88000000, 0x87FFFFFF,
      0x90000004, 0x90000008] : List Word).all refuses = true := by decide

/-- The words of the examples of R101. -/
theorem test_encode_examples :
    encode (.init 6) = 0x10000006#32 ∧ encode (.wrmod 0x133 11) = 0x200B0133#32 ∧
    encode (.append .auto 1) = 0x60000001#32 ∧ encode (.encode .auto 10 6) = 0x800A0006#32 ∧
    encode (.append .b 4) = 0x62000004#32 := by decide

/-! ### One command -/

-- R191, example
theorem test_init :
    seen (fun t => (t.cap, regs t)) (exec (.init 6)
      { fresh 2 [] [] with code := .stop, chk := 8, nsym := 4, err := true, cursor := 16 }) = some (6, .none, 0, 0, 0, false) := by decide
-- R134, example: the first and the second WRMOD
theorem test_wrmod :
    seen (fun t => (bufBytes 2 t, t.cursor, t.err)) (exec (.wrmod 0x133 11) (fresh 2 [0xFF, 0xFF] [])) =
      some ([0x26, 0x7F], 11, false) := by decide
theorem test_wrmod_overflow :
    seen (fun t => (bufBytes 2 t, t.cursor, t.err))
      (exec (.wrmod 0x16F 11) { fresh 2 [0x26, 0x7F] [] with cursor := 11 }) =
      some ([0x26, 0x65], 16, true) := by decide
-- R135, example: the first and the second QUIET
theorem test_quiet :
    seen (fun t => (bufBytes 1 t, t.cursor, t.err)) (exec (.quiet 8) (fresh 1 [0x00] [])) =
      some ([0xFF], 8, false) := by decide
theorem test_quiet_full :
    seen (fun t => (bufBytes 1 t, t.cursor, t.err)) (exec (.quiet 1) { fresh 1 [0xFF] [] with cursor := 8 }) =
      some ([0xFF], 8, true) := by decide
-- R153, example: START-A from a fresh run, and CODE-C with weight 2
theorem test_chcode_start : seen regs (exec (.chcode .a) (fresh 8 [] [])) = some (.a, 0, 1, 11, false) := by
  decide +kernel
theorem test_chcode_switch :
    seen regs (exec (.chcode .c) { fresh 8 [] [] with code := .a, chk := 65, nsym := 2, cursor := 22 }) =
      some (.c, 57, 3, 33, false) := by decide +kernel
-- R151, example: the symbol that is cut short still counts, and the next one is refused
theorem test_apsym_cut :
    seen regs (exec (.apsym 33) { fresh 2 [] [] with chk := 1, nsym := 1, cursor := 11 }) =
      some (.none, 34, 2, 16, true) := by decide +kernel
theorem test_apsym_refused :
    seen regs (exec (.apsym 34) { fresh 2 [] [] with chk := 34, nsym := 2, cursor := 16, err := true }) =
      some (.none, 34, 2, 16, true) := by decide +kernel
-- R159, example "a1234": 104 65 99 12 34, weighted sum 104 + 65 + 198 + 36 + 136 = 539 = 24 mod 103
theorem test_append :
    seen regs (exec (.append .auto 5) (fresh 20 [] [0x61, 0x31, 0x32, 0x33, 0x34])) =
      some (.c, 24, 5, 55, false) := by decide +kernel
-- R159 (d): 0x80 breaks the lookahead, so 0x31 is a single character (104 17), and ends the output
theorem test_append_unencodable :
    seen regs (exec (.append .auto 4) (fresh 20 [] [0x31, 0x80, 0x32, 0x33])) = some (.b, 18, 2, 22, true) := by
  decide +kernel
-- R161: from NONE 104 1 106; and the example after APPEND AUTO, "A"
theorem test_final_empty : seen regs (exec .final (fresh 5 [] [])) = some (.stop, 8, 3, 35, false) := by
  decide +kernel
theorem test_final :
    seen regs (exec .final { fresh 6 [] [] with code := .b, chk := 34, nsym := 2, cursor := 22 }) =
      some (.stop, 8, 4, 46, false) := by decide +kernel
-- E3 and E9 of 95_test_vectors.md
theorem test_encode :
    seen (bufBytes 9) (exec (.encode .auto 10 1) (fresh 9 [] [0x41])) =
      some [0xFF, 0xCB, 0x7A, 0xE7, 0x74, 0xE7, 0x14, 0xFF, 0xC0] ∧
    seen regs (exec (.encode .auto 10 1) (fresh 9 [] [0x41])) = some (.stop, 8, 4, 66, false) ∧
    seen State.response (exec (.encode .auto 10 1) (fresh 9 [] [0x41])) = some (some ⟨.ok, 66⟩) := by
  decide +kernel
theorem test_encode_unencodable :
    seen (bufBytes 16) (exec (.encode .auto 3 3) (fresh 16 [] [0x41, 0x80, 0x42])) =
      some ([0xE5, 0xBD, 0x73, 0xF0] ++ List.replicate 12 0x00) ∧
    seen regs (exec (.encode .auto 3 3) (fresh 16 [] [0x41, 0x80, 0x42])) = some (.stop, 34, 2, 28, true) := by
  decide +kernel
-- R193, example: STATUS after the "A" encode into CAP = 4 is 0x669
theorem test_rdreg_status :
    seen State.response (exec (.rdreg .status) { fresh 4 [] [] with code := .stop, chk := 102, err := true }) =
      some (some ⟨.ok, 0x669⟩) := by decide
theorem test_rdreg_cap : seen State.response (exec (.rdreg .cap) (fresh 6 [] [])) = some (some ⟨.ok, 6⟩) := by
  decide
-- R137, example: the buffer of the "A" encode (E2) in CAP = 6
theorem test_rdmod :
    ([0, 2, 45] : List (BitVec 28)).map (fun i => seen State.response
      (exec (.rdmod i) (fresh 6 [0x2D, 0xEB, 0x9D, 0xD3, 0x9C, 0x50] []))) =
      [some (some ⟨.ok, 0⟩), some (some ⟨.ok, 1⟩), some (some ⟨.ok, 0⟩)] := by decide
theorem test_rdmod_range :
    seen State.response (exec (.rdmod 48) (fresh 6 [0x2D, 0xEB, 0x9D, 0xD3, 0x9C, 0x50] [])) =
      some (some ⟨.range, 0⟩) := by decide

/-! ### Both bit orders, the text policy, the step -/

/-- E10 of 95_test_vectors.md, "ab1234" with quiet zones of 10, under both bit orders. -/
theorem test_bit_orders :
    bufBytes 14 (encodeRun .msbFirst .auto 10 6 (fresh 14 [] [0x61, 0x62, 0x31, 0x32, 0x33, 0x34])) =
      [0xFF, 0xCB, 0x7B, 0x4F, 0x6F, 0x28, 0x85, 0x31, 0xBA, 0x74, 0x2E, 0x71, 0x4F, 0xFC] ∧
    bufBytes 14 (encodeRun .lsbFirst .auto 10 6 (fresh 14 [] [0x61, 0x62, 0x31, 0x32, 0x33, 0x34])) =
      [0xFF, 0xD3, 0xDE, 0xF2, 0xF6, 0x14, 0xA1, 0x8C, 0x5D, 0x2E, 0x74, 0x8E, 0xF2, 0x3F] := by decide +kernel

/-- The examples of R159, symbols emitted by APPEND alone. -/
theorem test_text_symbols :
    textSymbols .auto .none [0x41] = [104, 33] ∧
    textSymbols .auto .none [0x61, 0x31, 0x32, 0x62] = [104, 65, 17, 18, 66] ∧
    textSymbols .auto .none [0x61, 0x31, 0x32, 0x33, 0x34] = [104, 65, 99, 12, 34] ∧
    textSymbols .auto .none [0x31, 0x32, 0x33] = [105, 12, 100, 19] ∧
    textSymbols .auto .none [0x01, 0x61, 0x01] = [103, 65, 100, 65, 101, 65] ∧
    textSymbols .auto .none [0x01, 0x20] = [103, 65, 100, 0] := by decide

/-- Runs under a fixed code set: F4 and F7 of 95_test_vectors.md. -/
theorem test_fixed_runs :
    runSymbols .b [0x31, 0x32, 0x33, 0x34] = [104, 17, 18, 19, 20, 88, 106] ∧
    runSymbols .c [0x41, 0x31] = [105, 33, 17, 69, 106] := by decide

/-- The readings of R115 and R256: 99 in Code C and in Code B; 65 under a fixed Code A; a fixed Code C text. -/
theorem test_meaning :
    meaning .c 99 = .chars [0x39, 0x39] ∧ meaning .b 99 = .enter .c ∧
    readText .none [103, 65] = [0x01] ∧ readText .none [105, 17, 18] = [0x31, 0x37, 0x31, 0x38] := by decide

/-- The sizing examples of R200. -/
theorem test_sizing :
    modulesFor 3 0 = 35 ∧ bytesFor 3 0 = 5 ∧ modulesFor 4 0 = 46 ∧ bytesFor 4 0 = 6 ∧ modulesFor 4 10 = 66 ∧
    bytesFor 4 10 = 9 ∧ symbolsGeneral 1 = 4 := by decide

/-- The pseudo-instructions of R102: WRSYM of symbol 0 is WRMOD 0x133, 11. -/
theorem test_pseudo :
    (Pseudo.wrsym 0).expansion = .wrmod 0x133 11 ∧ Pseudo.rdlen.expansion = .rdreg .cursor ∧
    (Pseudo.start .c).expansion = .chcode .c ∧ (Pseudo.encodeq0 .b 4).expansion = .encode .b 0 4 := by
  decide +kernel

/-- RDERR takes bit 0 of STATUS: 0x669 after the overflow of R193's example, 0x88 after the empty encode. -/
theorem test_rderr : Pseudo.rderr.result 0x669 = 1 ∧ Pseudo.rderr.result 0x88 = 0 ∧
    Pseudo.rdstat.result 0x669 = 0x669 := by decide

/-- The column `pat` of R112. -/
theorem test_symbol_patterns : (List.range 107).map (fun c => (symRom c).pat) =
    [0x133, 0x193, 0x199, 0x367, 0x373, 0x3B3, 0x337, 0x33B, 0x39B,
      0x1B7, 0x1BB, 0x1DB, 0x263, 0x323, 0x331, 0x233, 0x313, 0x319] ++
    [0x18D, 0x1A3, 0x1B1, 0x11B, 0x18B, 0x091, 0x0B3, 0x0D3, 0x0D9,
      0x09B, 0x0CB, 0x0CD, 0x127, 0x139, 0x1C9, 0x2E7, 0x3A7, 0x3B9] ++
    [0x277, 0x397, 0x39D, 0x177, 0x1D7, 0x1DD, 0x247, 0x271, 0x391,
      0x227, 0x239, 0x389, 0x089, 0x171, 0x1D1, 0x117, 0x11D, 0x111] ++
    [0x0A7, 0x0B9, 0x0E9, 0x097, 0x09D, 0x0E5, 0x085, 0x1BD, 0x075,
      0x2CF, 0x2F3, 0x34F, 0x379, 0x3D3, 0x3D9, 0x26F, 0x27B, 0x32F] ++
    [0x33D, 0x3CB, 0x3CD, 0x1ED, 0x1AF, 0x045, 0x1EB, 0x385, 0x2C3,
      0x343, 0x361, 0x21B, 0x30B, 0x30D, 0x05B, 0x06B, 0x06D, 0x121] ++
    [0x109, 0x049, 0x287, 0x2E1, 0x3A1, 0x217, 0x21D, 0x057, 0x05D,
      0x221, 0x211, 0x0A1, 0x051, 0x17B, 0x16F, 0x163, 0x0714] := by
  decide +kernel

/-- A step takes the next word: INIT 6 as the first command after reset. -/
theorem test_step_init :
    seen (fun t => (t.cap, t.response, t.agenda)) (step (State.reset.withFetchWord 32 0x10000006)) =
      some (6, some ⟨.ok, 0⟩, []) := by decide

/-- An illegal word changes nothing but the response (R97, R217 d). -/
theorem test_step_illegal :
    seen (fun t => (regs t, t.response)) (step (State.reset.withFetchWord 32 0x5000006B)) =
      some ((.none, 0, 0, 0, false), some ⟨.illegal, 0⟩) := by decide

/-- The host places a text; then the text is there (R242). -/
theorem test_step_place_text :
    seen (State.text · 2) (step { State.reset with agenda := [.placeText 0 [0x41, 0x42]] }) =
      some [0x41, 0x42] := by decide

/-! ### Witnesses: a state and operands that meet the hypotheses of each obligation -/

theorem reset_inv : State.reset.Inv where
  bufWf := by decide
  bufExtent := by simp [State.reset]
  txtWf := by decide
  txtExtent := by simp [State.reset]
  capWidth := by decide
  cursorBound := by decide
  symbolsStored := by decide
  symbolsBound := by decide
  checksumStart := by decide
  noTextPos := rfl

/-- A full buffer after an overflow, with a symbol that was cut short. -/
def full : State := { fresh 2 [0x2D, 0xEB] [0x41, 0x80, 0x31, 0x32] with
  code := .b, chk := 34, nsym := 2, cursor := 16, err := true }

theorem full_inv : full.Inv where
  bufWf := by decide
  bufExtent := by decide
  txtWf := by decide
  txtExtent := by decide
  capWidth := by decide
  cursorBound := by decide
  symbolsStored := by decide
  symbolsBound := by decide
  checksumStart := by decide
  noTextPos := rfl

theorem witness_EncodingRoundTrip :
    Instr.wf (.wrmod 0xFFFF 16) = true ∧ Instr.wf (.apsym 106) = true ∧ Instr.wf (.encode .c 255 0xFFFF) = true := by
  decide

theorem witness_DecodedWordReencodes : decode 0x2010FFFF#32 = .ok (.wrmod 0xFFFF 16) := by decide

theorem witness_DecodeFollowsMatchMaskTable :
    0x500000EA#32 &&& (rowOf (.apsym 0)).mask ≠ (rowOf (.apsym 0)).pattern ∧
    0x5000006A#32 &&& (rowOf (.apsym 0)).mask = (rowOf (.apsym 0)).pattern ∧
    (rowOf (.apsym 0)).check 0x5000006A#32 = true ∧ (rowOf (.apsym 0)).check 0x5000006B#32 = false := by decide

theorem witness_IllegalWordsAreRefused :
    ({ full with agenda := [.command 0x20110000#32] } : State).agenda = .command 0x20110000#32 :: [] ∧
    ∃ e, decode 0x20110000#32 = .error e := ⟨rfl, .widthRange, by decide⟩

theorem witness_StepRunsDecodedCommand :
    (State.reset.withFetchWord 32 0x70000000).agenda = .command 0x70000000#32 :: [] ∧
    decode 0x70000000#32 = .ok .final := by decide

theorem witness_OperandsOutOfRangeRefused : 16 < (17 : BitVec 5).toNat ∧ 106 < (107 : BitVec 7).toNat := by decide

theorem witness_HostPlacesBytes :
    full.txt.wf = true ∧ full.buf.wf = true ∧ 65534 + [0x41#8].length ≤ 65535 ∧ 65535 < 65535 + [0x41#8].length ∧
    16777214 + [0x41#8].length ≤ 16777215 ∧ 16777215 < 16777215 + [0x41#8].length ∧
    ({ full with agenda := [.placeText 65534 [0x41]] } : State).agenda = .placeText 65534 [0x41] :: [] ∧
    ({ full with agenda := [.placeBuf 16777214 [0x41]] } : State).agenda = .placeBuf 16777214 [0x41] :: [] := by
  decide

theorem witness_HardwareReset :
    ({ full with agenda := [.hardReset] } : State).agenda = .hardReset :: [] ∧ State.reset.agenda = [] ∧
    State.reset.cap = 0 ∧ State.reset.cursor = 0 ∧ (∀ cap, Instr.final ≠ .init cap) ∧
    ∃ t, exec .final State.reset = .next t := ⟨rfl, rfl, rfl, rfl, by simp, _, rfl⟩

theorem witness_StepKeepsInvariant :
    (full.withFetchWord 32 0x70000000).Inv ∧ ∃ t, step (full.withFetchWord 32 0x70000000) = .next t ∧ t.code = .stop :=
  ⟨{ full_inv with }, _, rfl, by decide⟩

theorem witness_InvariantBoundsRegisters : full.Inv ∧ 1 ≤ full.nsym ∧
    ({ full with txtpos := some 65534 } : State).pos < (65535 : BitVec 16).toNat := ⟨full_inv, by decide, by decide⟩

theorem witness_WriteModuleStoresOneBit :
    15 >>> 3 < 2 ∧ ({ full with cursor := 15 } : State).buf.wf = true ∧ full.cap ≤ full.cursor >>> 3 := by decide

theorem witness_WrmodAppendsPattern : (16 : BitVec 5).toNat ≤ 16 ∧ full.buf.wf = true := by decide

theorem witness_RdmodReturnsModule :
    (15 : BitVec 28).toNat >>> 3 < full.cap ∧ full.cap ≤ (16 : BitVec 28).toNat >>> 3 := by decide

theorem witness_OverflowIsSticky :
    8 * full.cap ≤ full.cursor ∧ startsRun (.wrmod 1 16) = false ∧ startsRun (.quiet 1) = false ∧
    startsRun (.apsym 106) = false ∧ startsRun (.chcode .a) = false ∧ CodeSet.a ≠ full.code ∧
    startsRun (.append .auto 1) = false ∧ startsRun .final = false ∧ full.code ≠ .stop ∧
    (∃ t, exec (.wrmod 1 16) full = .next t) ∧ (∃ t, exec (.quiet 1) full = .next t) ∧
    (∃ t, exec (.apsym 106) full = .next t) ∧ (∃ t, exec (.chcode .a) full = .next t) ∧
    (∃ t, exec (.append .auto 1) full = .next t) ∧ ∃ t, exec .final full = .next t :=
  ⟨by decide, rfl, rfl, rfl, rfl, by decide, rfl, rfl, by decide, ⟨_, rfl⟩, ⟨_, rfl⟩, ⟨_, rfl⟩, ⟨_, rfl⟩, ⟨_, rfl⟩,
    _, rfl⟩

theorem witness_NoAccessBeyondCapacity :
    (∃ t, exec (.quiet 1) { full with cursor := 15 } = .next t) ∧ full.buf.wf = true ∧
    Memory.wf [(0, 0x2D#8), (1, 0xEB#8), (2, 0xFF#8)] = true ∧
    ∀ a, a < full.cap → Memory.read [(0, 0x2D#8), (1, 0xEB#8), (2, 0xFF#8)] a = full.buf.read a :=
  ⟨⟨_, rfl⟩, by decide, by decide, by decide⟩

theorem witness_BufferWrittenOnlyBetweenCursors :
    full.buf.wf = true ∧ startsRun (.quiet 1) = false ∧ (∃ t, exec (.quiet 1) full = .next t) ∧
    (∃ t, exec (.encode .auto 0 1) full = .next t) ∧ ∃ t, exec (.rdmod 0) full = .next t :=
  ⟨by decide, rfl, ⟨_, rfl⟩, ⟨_, rfl⟩, _, rfl⟩

theorem witness_RunResetIsTheOnlyWayBack :
    startsRun .final = false ∧ full.err = true ∧ ({ full with code := .stop } : State).code = .stop ∧
    (∃ t, exec .final full = .next t) ∧ ∃ t, exec .final { full with code := .stop } = .next t :=
  ⟨rfl, rfl, rfl, ⟨_, rfl⟩, _, rfl⟩

theorem witness_RdregReturnsRegister : (opc 0x90000004#32).toNat = 9 ∧ 3 < (field 0x90000004#32 0 3).toNat := by
  decide

theorem witness_ApsymEmitsSymbol :
    (106 : BitVec 7).toNat ≤ 106 ∧ (fresh 2 [] []).err = false ∧ (fresh 2 [] []).code ≠ .stop ∧
    (fresh 2 [] []).buf.wf = true := by decide

theorem witness_ApsymRefusedSetsOnlyErr : (106 : BitVec 7).toNat ≤ 106 ∧ full.err = true := by decide

theorem witness_ChcodeFollowsStateMachine :
    CodeSet.b = full.code ∧ (CodeSet.stop ≠ full.code ∧ CodeSet.stop = .stop) ∧
    ((true, CodeSet.c, 105#7) ∈ [(true, CodeSet.a, 103#7), (true, CodeSet.b, 104#7), (true, CodeSet.c, 105#7),
        (false, CodeSet.a, 101#7), (false, CodeSet.b, 100#7), (false, CodeSet.c, 99#7)] ∧
      true = decide ((fresh 2 [] []).code = .none) ∧ CodeSet.c ≠ (fresh 2 [] []).code ∧
      (fresh 2 [] []).code ≠ .stop) ∧
    false = decide (full.code = .none) ∧ CodeSet.c ≠ full.code ∧ full.code ≠ .stop := by decide

theorem witness_ChcodeEmitsTransitionSymbol :
    CodeSet.c ≠ (fresh 1 [] []).code ∧ transitionSym (fresh 1 [] []).code .c = some 105 ∧
    (fresh 1 [] []).err = false ∧ (fresh 1 [] []).buf.wf = true := by decide

theorem witness_TargetOfByte : (0x7F#8).toNat ≤ 0x7F ∧ (0x00#8).toNat ≤ 0x7F ∧ 0x20 ≤ 0x27 ∧ 0x27 ≤ 0x80 := by decide

theorem witness_CompactionTest :
    3 < 4 ∧ compactAt (Memory.writeBytes [] 0 [0x31, 0x32, 0x33, 0x34]) 4 0 .auto .b = true ∧
    compactAt (Memory.writeBytes [] 0 [0x31, 0x32, 0x33]) 3 0 .auto .b = false ∧
    compactAt (Memory.writeBytes [] 0 [0x31, 0x32, 0x33]) 3 0 .auto .none = true := by decide

theorem witness_ByteStepOrder :
    full.pos < 4 ∧ (full.txt.read 0).toNat < 0x80 ∧ compactAt full.txt 4 full.pos .auto full.code = false ∧
    ({ full with txtpos := some 1 } : State).pos < 4 ∧ 0x80 ≤ (full.txt.read 1).toNat ∧
    ({ full with txtpos := some 2, code := .c } : State).pos < 4 ∧ (full.txt.read 2).toNat < 0x80 ∧
    compactAt full.txt 4 2 .auto .c = true := by decide

theorem encodable_digits : encodable ((fresh 9 [] [0x31, 0x32, 0x7F]).text 3) := by unfold encodable; decide

theorem witness_AppendEmitsTextSymbols :
    encodable ((fresh 9 [] [0x31, 0x32, 0x7F]).text (3 : BitVec 16).toNat) ∧
    (fresh 9 [] [0x31, 0x32, 0x7F]).err = false ∧ (fresh 9 [] [0x31, 0x32, 0x7F]).code ≠ .stop ∧
    (fresh 9 [] [0x31, 0x32, 0x7F]).buf.wf = true := ⟨encodable_digits, by decide, by decide, by decide⟩

theorem witness_UnencodableByteEndsOutput :
    (1 : BitVec 16).toNat < (4 : BitVec 16).toNat ∧ encodable (full.text (1 : BitVec 16).toNat) ∧
    0x80 ≤ (full.txt.read (1 : BitVec 16).toNat).toNat ∧ ∃ u, exec (.append .auto 1) full = .next u :=
  ⟨by decide, by unfold encodable; decide, by decide, _, rfl⟩

theorem witness_FinalClosesRun :
    (fresh 5 [] []).err = false ∧ (fresh 5 [] []).buf.wf = true ∧ (fresh 5 [] []).code = .none ∧
    ({ fresh 5 [] [] with code := .c, chk := 2, nsym := 1, cursor := 11 } : State).code = .c := by decide

theorem witness_FinalIdempotentAndSafeAfterError :
    ({ full with code := .stop } : State).code = .stop ∧ full.code ≠ .stop ∧ full.err = true := by decide

theorem witness_InertEncoder :
    encoderCommand .final = true ∧ encoderCommand (.append .auto 4) = true ∧ full.txtpos = none ∧ full.err = true ∧
    (∃ t, exec (.append .auto 4) full = .next t) ∧ ({ full with code := .stop } : State).code = .stop ∧
    ∃ t, exec .final { full with code := .stop } = .next t := ⟨rfl, rfl, rfl, rfl, ⟨_, rfl⟩, rfl, _, rfl⟩

theorem witness_ChecksumLaw :
    (∀ c ∈ [104#7, 106#7], c.toNat ≤ 106) ∧ (fresh 4 [] []).code ≠ .stop ∧ (fresh 4 [] []).err = false ∧
    (fresh 4 [] []).nsym = 0 ∧ (fresh 4 [] []).chk = 0 ∧
    (fresh 4 [] []).cursor + 13 * [104#7, 106#7].length ≤ 8 * (fresh 4 [] []).cap ∧
    ({ fresh 4 [] [] with agenda := [.command 0x50000068, .command 0x5000006A] } : State).agenda =
      [104#7, 106#7].map (fun c => HostMove.command (encode (.apsym c))) := by decide

theorem witness_EncodeWritesBarcode :
    encodable ((fresh 6 [] [0x41]).text (1 : BitVec 16).toNat) ∧ (fresh 6 [] [0x41]).buf.wf = true ∧
    modulesFor (runSymbols .auto ((fresh 6 [] [0x41]).text (1 : BitVec 16).toNat)).length (0 : BitVec 8).toNat ≤
      8 * (fresh 6 [] [0x41]).cap := ⟨by unfold encodable; decide, by decide, by decide⟩

theorem witness_EncodeOverflowWritesPrefix :
    encodable ((fresh 5 [] [0x41]).text (1 : BitVec 16).toNat) ∧ (fresh 5 [] [0x41]).buf.wf = true ∧
    8 * (fresh 5 [] [0x41]).cap <
      modulesFor (runSymbols .auto ((fresh 5 [] [0x41]).text (1 : BitVec 16).toNat)).length (0 : BitVec 8).toNat :=
  ⟨by unfold encodable; decide, by decide, by decide⟩

/-- E12 of 95_test_vectors.md: a START that is cut short; and a leading quiet zone that overflows. -/
theorem witness_EncodeOverflow_counts :
    seen (fun t => (t.nsym, t.chk.val)) (exec (.encode .auto 3 0) (fresh 1 [] [])) = some (1, 1) ∧
    (if 8 * (fresh 1 [] []).cap < 3 then 0 else State.accepts { fresh 1 [] [] with cursor := 3 } 3) = 1 ∧
    seen (fun t => (t.nsym, t.chk.val)) (exec (.encode .auto 9 0) (fresh 1 [] [])) = some (0, 0) := by decide +kernel

theorem witness_EncodeEqualsItsSequence : ({ full with cap := 2 ^ 24 - 1 } : State).cap < 2 ^ 24 := by decide

/-- One witness per clause: without error; an unencodable byte and room; an overflow (E3, E9, E8 in turn). -/
theorem witness_EncodeModuleCount :
    seen (fun t => (t.err, t.cursor)) (exec (.encode .auto 10 1) (fresh 9 [] [0x41])) = some (false, 66) ∧
    seen (fun t => (t.err, t.cursor)) (exec (.encode .auto 3 3) (fresh 16 [] [0x41, 0x80, 0x42])) =
      some (true, 28) ∧ 28 < 8 * 16 ∧
    seen (fun t => (t.err, t.cursor)) (exec (.encode .auto 2 1) (fresh 6 [] [0x41])) = some (true, 48) ∧
    (fresh 6 [] [0x41]).text (1 : BitVec 16).toNat = [0x41] := by decide +kernel

theorem witness_QuietZonesAtBothEnds :
    (fresh 9 [] [0x41]).buf.wf = true ∧
    seen (·.err) (exec (.encode .auto 10 1) (fresh 9 [] [0x41])) = some false := by decide +kernel

theorem witness_EncodedStreamParsesBack :
    (fresh 5 [] []).buf.wf = true ∧
    seen (fun t => (t.err, parseStream t.nsym ((List.range' 0 35).map (readModule Config.bitOrder t.buf))))
      (exec (.encode .auto 0 0) (fresh 5 [] [])) = some (false, some [104, 1, 106]) := by decide +kernel

theorem witness_SafeCapacityNeverOverflows :
    encodable ((fresh 11 [] [0x01, 0x61]).text (2 : BitVec 16).toNat) ∧
    bytesFor (2 * (2 : BitVec 16).toNat + 3) (4 : BitVec 8).toNat ≤ (fresh 11 [] [0x01, 0x61]).cap ∧
    ∃ t, exec (.encode .auto 4 2) (fresh 11 [] [0x01, 0x61]) = .next t :=
  ⟨by unfold encodable; decide, by decide, _, rfl⟩

/-- The worst case of R200: control and lower-case letters alternating take `2 * N + 2` symbols. -/
theorem witness_SymbolCountBounds :
    (∃ t, exec (.append .auto 2) (fresh 12 [] [0x01, 0x61]) = .next t) ∧ 1 ≤ (2 : BitVec 16).toNat ∧
    seen (·.nsym) (exec (.encode .auto 0 2) (fresh 12 [] [0x01, 0x61])) = some (2 * 2 + 2) :=
  ⟨⟨_, rfl⟩, by decide, by decide +kernel⟩

theorem witness_DigitRunSymbolCount :
    (∀ b ∈ [0x30#8, 0x39#8, 0x35#8], isDigit (some b) = true) ∧ 3 ≤ [0x30#8, 0x39#8, 0x35#8].length ∧
    [0x30#8, 0x39#8, 0x35#8].length % 2 = 1 ∧ (runSymbols .auto [0x30, 0x39, 0x35]).length = 6 ∧
    (runSymbols .auto [0x30, 0x39]).length = 4 ∧ (runSymbols .auto [0x39]).length = 4 := by decide

theorem witness_CommandFrames : full.txtpos = none ∧ (∀ cap, Instr.final ≠ .init cap) ∧
    (∃ t, exec .final full = .next t) ∧ ∃ t, exec (.rdmod 16) full = .next t :=
  ⟨rfl, by simp, ⟨_, rfl⟩, _, rfl⟩

theorem witness_BufferNeverSteersRegisters :
    (∀ idx, Instr.final ≠ .rdmod idx) ∧ ∃ t, exec .final full = .next t := ⟨by simp, _, rfl⟩

theorem witness_BitOrderMovesOnlyBits : full.buf.wf = true := by decide

theorem witness_TextReadOnlyBelowLen :
    (∃ t, exec (.append .auto 1) full = .next t) ∧ ∀ a, a < (1 : BitVec 16).toNat →
      Memory.read [(0, 0x41#8), (1, 0x39#8)] a = full.txt.read a := ⟨⟨_, rfl⟩, by decide⟩

theorem witness_SymbolStreamsParseUniquely : ∀ c ∈ [103, 0, 105], c ≤ 105 := by decide

theorem witness_SymbolsReadAsText : encodable [0x00, 0x7F, 0x39, 0x39, 0x30, 0x30] ∧
    readText .none (bodySymbols .auto [0x00, 0x7F, 0x39, 0x39, 0x30, 0x30]) = [0x00, 0x7F, 0x39, 0x39, 0x30, 0x30] :=
  ⟨by unfold encodable; decide, by decide⟩

theorem witness_EveryCommandResponds :
    (∃ t, exec (.encode .auto 0 1) full = .next t) ∧ (∃ t, exec (.rdreg .cap) full = .next t) ∧
    (∃ t, exec (.rdmod 15) full = .next t ∧ t.response = some ⟨.ok, 1⟩) ∧
    (∃ t, exec (.rdmod 16) full = .next t ∧ t.response = some ⟨.range, 0⟩) ∧
    (∃ t, exec (.wrmod 1 17) full = .next t ∧ t.response = some ⟨.illegal, 0⟩) ∧
    (full.withFetchWord 32 0x5000006B).agenda = .command 0x5000006B :: [] ∧
    decode 0x5000006B = .error .symbolRange :=
  ⟨⟨_, rfl⟩, ⟨_, rfl⟩, ⟨_, rfl, by decide⟩, ⟨_, rfl, by decide⟩, ⟨_, rfl, by decide⟩, rfl, by decide⟩

/-- Which symbols are accepted when they do not all fit: from cursor 0 and CAP 2, the second is cut short and counted,
the third refused (the example of R151); on a full buffer the first is cut to nothing and counted. -/
theorem witness_accepts :
    (fresh 2 [] []).accepts 3 = 2 ∧ State.accepts { fresh 2 [] [] with cursor := 16 } 3 = 1 ∧
    (fresh 20 [] []).accepts 3 = 3 := by decide

theorem witness_WrsymWritesBarsOnly : 106 ≤ 106 ∧ full.buf.wf = true := by decide

end Sys2Proof.Tests
end

section
/-! SUPPORT. What a step does, by the host's next move, and the proof that it runs the decoded command word (R4, R5). -/

namespace Sys2Proof.Machine

/-- A pending move is taken off the agenda and carried out (R4). -/
theorem step_of_agenda_cons {s : State} {m : HostMove} {ms : List HostMove} (h : s.agenda = m :: ms) :
    step s = runMove m (s.setAgenda ms) := by
  rw [step, h]

/-- A word that decodes runs as its command (R5, R91). -/
theorem runWord_of_decode_ok {w : Word} {i : Instr} (h : decode w = .ok i) (s : State) :
    runWord w s = exec i s := by
  rw [runWord, h]

end Sys2Proof.Machine

namespace Sys2Proof

open Machine

/-- Settles O6: the step takes the move off the agenda, and the move is a word that decodes. -/
theorem stepRunsDecodedCommand : Obligations.StepRunsDecodedCommand := by
  intro s w i ms hagenda hdecode
  calc step s = runWord w (s.setAgenda ms) := step_of_agenda_cons hagenda
    _ = exec i (s.setAgenda ms) := runWord_of_decode_ok hdecode _

end Sys2Proof
end

section
/-! SUPPORT. What every command has in common: its effect is an extension of the state its run starts from, followed by
a response (R5, R90, R210); and what the host's moves do. The statements on frames, symbol counts and the invariant all
follow from these. -/

namespace Sys2Proof.Machine

/-! ### One command -/

/-- The state a command works from: INIT and ENCODE reset the run first (R190 to R192). -/
def runStart : Instr → State → State
  | .init cap, s => (s.setCap cap.toNat).runReset
  | .encode _ _ _, s => s.runReset
  | _, s => s

@[simp] theorem runStart_txt (i : Instr) (s : State) : (runStart i s).txt = s.txt := by cases i <;> rfl
@[simp] theorem runStart_agenda (i : Instr) (s : State) : (runStart i s).agenda = s.agenda := by cases i <;> rfl

theorem runStart_cap {i : Instr} (h : ∀ cap, i ≠ .init cap) (s : State) : (runStart i s).cap = s.cap := by
  cases i with
  | init cap => exact absurd rfl (h cap)
  | _ => rfl

/-- RDMOD answers, and changes nothing else, inside the buffer and outside it (R59, R137). -/
theorem exec_rdmod_responds (idx : BitVec 28) (s : State) :
    ∃ code v, exec (.rdmod idx) s = .next (s.respond code v) := by
  by_cases h : byteOff idx.toNat < s.cap
  · exact ⟨_, _, if_pos h⟩
  · exact ⟨_, _, if_neg h⟩

/-- Every command extends the state its run starts from, gives TXTPOS no value, and then responds. -/
theorem exec_extends (i : Instr) (s : State) : ∃ code v u, exec i s = .next (u.respond code v) ∧
    Extends Config.bitOrder (runStart i s) u ∧ (s.txtpos = none → u.txtpos = none) := by
  cases i with
  | init cap => exact ⟨_, _, _, rfl, Extends.refl _ _, id⟩
  | wrmod pat width =>
    by_cases h : widthLegal width = true
    · exact ⟨_, _, _, if_pos h, Extends.writeAll _ _ s, (writeAll_txtpos _ _ s).trans⟩
    · exact ⟨_, _, _, if_neg h, Extends.refl _ s, id⟩
  | quiet n => exact ⟨_, _, _, rfl, Extends.quiet _ _ s, (writeAll_txtpos _ _ s).trans⟩
  | chcode tgt => exact ⟨_, _, _, rfl, Extends.changeCode _ _ s, (changeCode_txtpos _ _ s).trans⟩
  | apsym sym =>
    by_cases h : symLegal sym = true
    · have hsym : sym.toNat ≤ 106 := Nat.le_of_lt_succ (of_decide_eq_true h)
      exact ⟨_, _, _, if_pos h, Extends.appendSymbol _ hsym s, (appendSymbol_txtpos _ _ s).trans⟩
    · exact ⟨_, _, _, if_neg h, Extends.refl _ s, id⟩
  | append fix len => exact ⟨_, _, _, rfl, Extends.append _ _ _ s, fun _ => append_txtpos _ _ _ s⟩
  | final => exact ⟨_, _, _, rfl, Extends.finalize _ s, (finalize_txtpos _ s).trans⟩
  | encode fix qz len => exact ⟨_, _, _, rfl, Extends.encodeRun _ _ _ _ s, fun _ => encodeRun_txtpos _ _ _ _ s⟩
  | rdreg reg => exact ⟨_, _, s, rfl, Extends.refl _ s, id⟩
  | rdmod idx =>
    obtain ⟨code, v, he⟩ := exec_rdmod_responds idx s
    exact ⟨code, v, s, he, Extends.refl _ s, id⟩

/-- The same of a next state that `exec` answered. -/
theorem exec_next_extends {i : Instr} {s t : State} (h : exec i s = .next t) : ∃ code v u, t = u.respond code v ∧
    Extends Config.bitOrder (runStart i s) u ∧ (s.txtpos = none → u.txtpos = none) := by
  obtain ⟨code, v, u, he, hu⟩ := exec_extends i s
  exact ⟨code, v, u, Host.Outcome.next.inj (h.symm.trans he), hu⟩

/-! ### The host's moves -/

/-- A word that does not decode is refused ILLEGAL (R97). -/
theorem runWord_of_decode_error {w : Word} {e : DecodeError} (h : decode w = .error e) (s : State) :
    runWord w s = .next (s.refuse .illegal) := by
  rw [runWord, h, refuseIllegal]

theorem hostPlaceText_of_le {off : Nat} {bytes : List Byte} (h : off + bytes.length ≤ Config.txtBytes) (s : State) :
    hostPlaceText off bytes s = .next (s.setTxt (s.txt.writeBytes off bytes)) := if_pos h

theorem hostPlaceText_of_lt {off : Nat} {bytes : List Byte} (h : Config.txtBytes < off + bytes.length) (s : State) :
    hostPlaceText off bytes s = .fault .txtOffset := if_neg (Nat.not_le_of_lt h)

theorem hostPlaceBuf_of_le {off : Nat} {bytes : List Byte} (h : off + bytes.length ≤ Config.bufBytes) (s : State) :
    hostPlaceBuf off bytes s = .next (s.setBuf (s.buf.writeBytes off bytes)) := if_pos h

theorem hostPlaceBuf_of_lt {off : Nat} {bytes : List Byte} (h : Config.bufBytes < off + bytes.length) (s : State) :
    hostPlaceBuf off bytes s = .fault .bufOffset := if_neg (Nat.not_le_of_lt h)

/-- An offset listed after writing a run of bytes lies below a bound that holds the run and the offsets before it. -/
theorem Memory.writeBytes_extent {m : Memory} {bound off : Nat} {vs : List Byte} (hm : ∀ cell ∈ m, cell.1 < bound)
    (h : off + vs.length ≤ bound) : ∀ cell ∈ m.writeBytes off vs, cell.1 < bound := by
  intro cell hc
  rcases Memory.mem_writeBytes hc with ⟨_, hlt⟩ | hc
  · exact Nat.lt_of_lt_of_le hlt h
  · exact hm cell hc

end Sys2Proof.Machine
end

section
/-! SUPPORT. The invariant of R33 and R60: what establishes it, what keeps it, and that every step does. -/

namespace Sys2Proof.Machine

/-- Both spaces are canonical and inside their extents: the part of the invariant that no reset establishes (R60). -/
structure State.Spaces (s : State) : Prop where
  bufWf : s.buf.wf = true
  bufExtent : ∀ cell ∈ s.buf, cell.1 < Config.bufBytes
  txtWf : s.txt.wf = true
  txtExtent : ∀ cell ∈ s.txt, cell.1 < Config.txtBytes

variable {s t : State}

theorem State.Inv.spaces (h : s.Inv) : s.Spaces := ⟨h.bufWf, h.bufExtent, h.txtWf, h.txtExtent⟩

/-- A reset of the run establishes the bounds on the registers. Hardware reset and the start of INIT and ENCODE each
leave a state of this form. -/
theorem State.Spaces.inv_runReset (h : s.Spaces) (hcap : s.cap < 2 ^ Config.capW) (hpos : s.txtpos = none) :
    s.runReset.Inv where
  bufWf := h.bufWf
  bufExtent := h.bufExtent
  txtWf := h.txtWf
  txtExtent := h.txtExtent
  capWidth := hcap
  cursorBound := Nat.zero_le _
  symbolsStored _ := Nat.le_refl _
  symbolsBound := Nat.le_refl _
  checksumStart _ := rfl
  noTextPos := hpos

theorem State.Inv.respond (h : s.Inv) (code : RespCode) (v : Nat) : (s.respond code v).Inv := { h with }

theorem State.Inv.setAgenda (h : s.Inv) (ms : List HostMove) : (s.setAgenda ms).Inv := { h with }

theorem State.Inv.placeText (h : s.Inv) {off : Nat} {bytes : List Byte}
    (hfit : off + bytes.length ≤ Config.txtBytes) : (s.setTxt (s.txt.writeBytes off bytes)).Inv :=
  { h with
    txtWf := Memory.writeBytes_wf h.txtWf off bytes
    txtExtent := Memory.writeBytes_extent h.txtExtent hfit }

theorem State.Inv.placeBuf (h : s.Inv) {off : Nat} {bytes : List Byte}
    (hfit : off + bytes.length ≤ Config.bufBytes) : (s.setBuf (s.buf.writeBytes off bytes)).Inv :=
  { h with
    bufWf := Memory.writeBytes_wf h.bufWf off bytes
    bufExtent := Memory.writeBytes_extent h.bufExtent hfit }

/-- Hardware reset needs the spaces alone (R240). -/
theorem State.Spaces.inv_hardReset (h : s.Spaces) : s.hardReset.Inv :=
  State.Spaces.inv_runReset (s := s.hardReset) { h with } (Nat.two_pow_pos _) rfl

theorem State.Inv.runStart (h : s.Inv) (i : Instr) : (runStart i s).Inv := by
  cases i with
  | init cap => exact State.Spaces.inv_runReset (s := s.setCap cap.toNat) { h.spaces with } cap.isLt h.noTextPos
  | encode fix qz len => exact h.spaces.inv_runReset h.capWidth h.noTextPos
  | _ => exact h

/-- An extension keeps the invariant, TXTPOS apart. -/
theorem State.Inv.extends {o : BitOrder} (h : s.Inv) (hst : Extends o s t) (hpos : t.txtpos = none) : t.Inv where
  bufWf := hst.bufWf h.bufWf
  bufExtent cell hc := by
    rcases hst.bufMem cell hc with hlt | hc
    · exact Nat.lt_of_lt_of_le hlt (Nat.le_sub_one_of_lt h.capWidth)
    · exact h.bufExtent cell hc
  txtWf := hst.txt ▸ h.txtWf
  txtExtent := hst.txt ▸ h.txtExtent
  capWidth := hst.cap ▸ h.capWidth
  cursorBound := by
    have := hst.cursor_bound
    have := h.cursorBound
    rw [hst.cap]
    omega
  symbolsStored := hst.symbolsStored h.symbolsStored
  symbolsBound := hst.symbolsBound h.symbolsStored h.symbolsBound
  checksumStart := hst.checksumStart h.checksumStart
  noTextPos := hpos

theorem exec_keeps_inv {i : Instr} (h : s.Inv) (he : exec i s = .next t) : t.Inv := by
  obtain ⟨code, v, u, rfl, hext, hpos⟩ := exec_next_extends he
  exact ((h.runStart i).extends hext (hpos h.noTextPos)).respond code v

theorem runWord_keeps_inv {w : Word} (h : s.Inv) (he : runWord w s = .next t) : t.Inv := by
  cases hd : decode w with
  | ok i => exact exec_keeps_inv h (runWord_of_decode_ok hd s ▸ he)
  | error e =>
    obtain rfl := Host.Outcome.next.inj (runWord_of_decode_error hd s ▸ he)
    exact h.respond .illegal 0

theorem runMove_keeps_inv {m : HostMove} (h : s.Inv) (he : runMove m s = .next t) : t.Inv := by
  cases m with
  | command w => exact runWord_keeps_inv h he
  | placeText off bytes =>
    change hostPlaceText off bytes s = .next t at he
    rcases Nat.lt_or_ge Config.txtBytes (off + bytes.length) with hfit | hfit
    · simp [hostPlaceText_of_lt hfit] at he
    · obtain rfl := Host.Outcome.next.inj (hostPlaceText_of_le hfit s ▸ he)
      exact h.placeText hfit
  | placeBuf off bytes =>
    change hostPlaceBuf off bytes s = .next t at he
    rcases Nat.lt_or_ge Config.bufBytes (off + bytes.length) with hfit | hfit
    · simp [hostPlaceBuf_of_lt hfit] at he
    · obtain rfl := Host.Outcome.next.inj (hostPlaceBuf_of_le hfit s ▸ he)
      exact h.placeBuf hfit
  | hardReset =>
    obtain rfl := Host.Outcome.next.inj he
    exact h.spaces.inv_hardReset

theorem step_of_agenda_nil (h : s.agenda = []) : step s = .next s := by
  rw [step, h]

theorem step_keeps_inv (h : s.Inv) (he : step s = .next t) : t.Inv := by
  cases ha : s.agenda with
  | nil =>
    obtain rfl := Host.Outcome.next.inj (step_of_agenda_nil ha ▸ he)
    exact h
  | cons m ms => exact runMove_keeps_inv (h.setAgenda ms) (step_of_agenda_cons ha ▸ he)

/-- CURSOR within the 24-bit capacity (R33). -/
theorem State.Inv.cursor_lt (h : s.Inv) : s.cursor < 2 ^ 27 := by
  have := h.cursorBound
  have : s.cap < 2 ^ 24 := h.capWidth
  omega

/-- Every counted symbol but the last has its 11 modules stored, and no more than the capacity's modules are (R33). -/
theorem State.Inv.nsym_bound (h : s.Inv) : 11 * s.nsym < 2 ^ 27 + 11 := by
  have := h.symbolsBound
  have := h.cursor_lt
  omega

/-- STATUS is at most `1 + 2 * 4 + 16 * 102`, in every state (R31). -/
theorem State.statusWord_lt (s : State) : s.statusWord < 2 ^ 11 := by
  have := Bool.toNat_le s.err
  have := s.code.number_lt
  have := s.chk.isLt
  unfold State.statusWord
  omega

end Sys2Proof.Machine
end

section
/-! SUPPORT. How many symbols a text can cost (R33, R200): once a byte of the text has been taken the run has a START
symbol or is in error, and then FINAL adds only the check symbol and STOP. -/

namespace Sys2Proof.Machine

/-- FINAL has no START symbol to add: the code set is chosen, or ERR stops every symbol (R150, R160). -/
def State.Started (s : State) : Prop := s.code ≠ .none ∨ s.err = true

theorem changeCode_started (o : BitOrder) {t : CodeSet} (ht : t ≠ .none) (s : State) :
    (changeCode o t s).Started := by
  rcases changeCode_cases o t s with ⟨hc, he⟩ | ⟨_, _, he⟩ | ⟨_, _, _, _, he⟩ <;> rw [he]
  · exact .inl (hc ▸ ht)
  · exact .inr rfl
  · exact .inl ht

theorem State.Started.appendSymbol {s : State} (h : s.Started) (o : BitOrder) {c : Nat} (hc : c ≤ 106) :
    (appendSymbol o c s).Started :=
  h.imp (by rw [appendSymbol_code]; exact id) (Extends.appendSymbol o hc s).err

/-- After a byte of the text the run is started, whatever came before (R158). -/
theorem byteStep_started (o : BitOrder) (fix : Fix) (len : Nat) (s : State) : (byteStep o fix len s).Started := by
  rcases byteStep_cases o fix len s with ⟨_, he⟩ | ⟨_, hc, he⟩ | ⟨hu, _, he⟩ <;> rw [he]
  · exact .inr rfl
  · obtain ⟨_, h0, h1, _⟩ := compactAt_digits hc
    have hsym := Nat.le_trans (pairSym_le h0 h1) (by decide : 99 ≤ 106)
    exact (changeCode_started o (by decide : CodeSet.c ≠ .none) s).appendSymbol o hsym
  · have hsym := Nat.le_trans (charSym_le hu) (by decide : 95 ≤ 106)
    have htgt : target Config.bReqLo (s.txt.read s.pos) fix ≠ .none := by
      rcases target_ne Config.bReqLo (s.txt.read s.pos) fix with h | h | h <;> simp [h]
    exact (changeCode_started o htgt s).appendSymbol o hsym

theorem State.Started.appendLoop {s : State} (h : s.Started) (o : BitOrder) (fix : Fix) (len fuel : Nat) :
    (appendLoop o fix len fuel s).Started :=
  appendLoop_induct (R := fun s t => s.Started → t.Started) (fun _ => id) (fun _ _ _ h1 h2 h => h2 (h1 h)) o fix len
    (fun s _ _ => byteStep_started o fix len s) fuel s h

/-- An APPEND of at least one byte leaves the run started (R159). -/
theorem append_started (o : BitOrder) (fix : Fix) {len : Nat} (hlen : 1 ≤ len) (s : State) :
    (append o fix len s).Started := by
  obtain ⟨n, rfl⟩ : ∃ n, len = n + 1 := ⟨len - 1, by omega⟩
  have hpos : (s.setPos 0).pos < n + 1 := Nat.succ_pos n
  change (appendLoop o fix (n + 1) (n + 1) (s.setPos 0)).Started
  rw [appendLoop, if_pos hpos]
  exact (byteStep_started o fix (n + 1) _).appendLoop o fix (n + 1) n

/-- In a started run FINAL counts at most the check symbol and STOP (R160). -/
theorem finalize_nsym_le_of_started (o : BitOrder) {s : State} (h : s.Started) :
    (finalize o s).nsym ≤ s.nsym + 2 := by
  rcases h with hcode | herr
  · by_cases hstop : s.code = .stop
    · rw [finalize_stop o hstop]; omega
    · have hstart : ensureStarted o s = s := if_neg hcode
      have hcheck := appendSymbol_nsym_le o s.chk.val s
      have hlast := appendSymbol_nsym_le o stopSym (appendSymbol o s.chk.val s)
      rw [finalize_running o hstop, hstart, State.setCode_nsym, appendCheck]
      omega
  · have := ((Extends.finalize o s).err_nsym herr).1
    omega

@[simp] theorem quiet_nsym (o : BitOrder) (n : Nat) (s : State) : (quiet o n s).nsym = s.nsym := writeAll_nsym o _ s

/-- An ENCODE counts the symbols of its text and at most START, check symbol and STOP (R192). -/
theorem encodeRun_nsym_le (o : BitOrder) (fix : Fix) (qz len : Nat) (s : State) :
    (encodeRun o fix qz len s).nsym ≤ 2 * len + 3 := by
  have htext := append_nsym_le o fix len (quiet o qz s.runReset)
  have hfinal := finalize_nsym_le o (append o fix len (quiet o qz s.runReset))
  rw [quiet_nsym, State.runReset_nsym] at htext
  rw [encodeRun, quiet_nsym]
  omega

/-- With a byte of text the START symbol is one of the two that its first byte costs at most (R200). -/
theorem encodeRun_nsym_le_of_pos (o : BitOrder) (fix : Fix) (qz : Nat) {len : Nat} (hlen : 1 ≤ len) (s : State) :
    (encodeRun o fix qz len s).nsym ≤ 2 * len + 2 := by
  have htext := append_nsym_le o fix len (quiet o qz s.runReset)
  have hfinal := finalize_nsym_le_of_started o (append_started o fix hlen (quiet o qz s.runReset))
  rw [quiet_nsym, State.runReset_nsym] at htext
  rw [encodeRun, quiet_nsym]
  omega

end Sys2Proof.Machine
end

section
/-! SUPPORT. RDREG: the layout of STATUS, and the words that name no register (R31). -/

namespace Sys2Proof

/-- Opcode 9 decodes by format R (R81, R82). -/
theorem decode_of_opc_nine {w : Word} (h : (opc w).toNat = 9) : decode w = decodeRdreg w := by
  have hopc : opc w = 9#4 := BitVec.eq_of_toNat_eq h
  simp [decode, hopc]

/-- A REG field above 3 names no register (R31, R84, R97). -/
theorem decodeRdreg_error {w : Word} (h : 3 < (field w 0 3).toNat) : ∃ e, decodeRdreg w = .error e := by
  obtain ⟨e, he⟩ := (RegSel.ofField_error_iff (field w 0 3)).2 h
  by_cases hr : reservedClear w 3 25 = true
  · exact ⟨e, by rw [decodeRdreg, if_pos hr, he]; rfl⟩
  · exact ⟨.reservedBit, if_neg hr⟩

/-- The ERR bit of STATUS, as a choice (R31). -/
theorem Machine.State.statusWord_eq_ite (s : Machine.State) :
    s.statusWord = (if s.err = true then 1 else 0) + 2 * s.code.number + 16 * s.chk.val := by
  cases h : s.err <;> simp [Machine.State.statusWord, h]

end Sys2Proof
end

section
/-! SUPPORT. The statements about the state: the invariant, the host's placements, the frame of a command, the growth of
NSYM and RDREG. -/

namespace Sys2Proof

open Machine

/-- Settles O11: by the kind of the host's next move, and for a command because it extends the state its run starts
from. -/
theorem stepKeepsInvariant : Obligations.StepKeepsInvariant := fun _ _ hinv hstep => step_keeps_inv hinv hstep

/-- Settles O10: hardware reset is a reset run over empty spaces. -/
theorem resetSatisfiesInvariant : Obligations.ResetSatisfiesInvariant :=
  State.Spaces.inv_runReset (s := State.reset)
    ⟨rfl, fun _ h => absurd h List.not_mem_nil, rfl, fun _ h => absurd h List.not_mem_nil⟩ (Nat.two_pow_pos _) rfl

/-- Settles O12: the bound on NSYM carries the widths, and the length operand's own width carries TXTPOS. -/
theorem invariantBoundsRegisters : Obligations.InvariantBoundsRegisters := by
  refine ⟨fun s h => ?_, fun o fix len s hlt => ?_⟩
  · have hcode := s.code.number_lt
    have hnsym := h.nsym_bound
    exact ⟨Nat.le_of_lt_succ s.chk.isLt, by omega, h.capWidth, h.cursorBound, h.cursor_lt, fun _ => h.symbolsBound,
      by omega, by omega, s.statusWord_lt, h.noTextPos⟩
  · obtain ⟨hgt, hle⟩ := byteStep_pos o fix len.toNat hlt
    have := len.isLt
    exact ⟨hgt, hle, by omega⟩

/-- Settles O8: a placement is `writeBytes` on one space, guarded by the extent of that space. -/
theorem hostPlacesBytes : Obligations.HostPlacesBytes := by
  refine fun s off bytes ms => ⟨fun ha hwf => ⟨fun hfit => ?_, fun hout => ?_⟩,
    fun ha hwf => ⟨fun hfit => ?_, fun hout => ?_⟩⟩ <;> rw [step_of_agenda_cons ha]
  · exact ⟨s.txt.writeBytes off bytes, hostPlaceText_of_le hfit _, Memory.writeBytes_wf hwf off bytes,
      fun _ => Memory.read_writeBytes_same hwf off bytes, fun _ => Memory.read_writeBytes_other s.txt off bytes⟩
  · exact hostPlaceText_of_lt hout _
  · exact ⟨s.buf.writeBytes off bytes, hostPlaceBuf_of_le hfit _, Memory.writeBytes_wf hwf off bytes,
      fun _ => Memory.read_writeBytes_same hwf off bytes, fun _ => Memory.read_writeBytes_other s.buf off bytes⟩
  · exact hostPlaceBuf_of_lt hout _

/-- Settles O47: APPEND by its bytes, ENCODE with at most three more symbols, or two once the text has a byte. -/
theorem symbolCountBounds : Obligations.SymbolCountBounds := by
  intro fix qz len s t u ht hu
  obtain rfl := Host.Outcome.next.inj ht
  obtain rfl := Host.Outcome.next.inj hu
  exact ⟨append_nsym_le _ fix len.toNat s, encodeRun_nsym_le _ fix qz.toNat len.toNat s,
    fun hlen => encodeRun_nsym_le_of_pos _ fix qz.toNat hlen s⟩

/-- Settles O50: a command extends the state its run starts from, which differs from `s` in CAP for INIT alone; the two
reads only respond. -/
theorem commandFrames : Obligations.CommandFrames := by
  intro i s t he
  obtain ⟨code, v, u, rfl, hext, hpos⟩ := exec_next_extends he
  refine ⟨hext.txt.trans (runStart_txt i s), hext.agenda.trans (runStart_agenda i s),
    fun hinit => hext.cap.trans (runStart_cap hinit s), hpos, ?_⟩
  rintro (⟨reg, rfl⟩ | ⟨idx, rfl⟩)
  · rw [← Host.Outcome.next.inj he]
    rfl
  · obtain ⟨code', v', he'⟩ := exec_rdmod_responds idx s
    rw [Host.Outcome.next.inj (he.symm.trans he')]
    rfl

/-- Settles O23: RDREG responds with the register view, and REG above 3 does not decode. -/
theorem rdregReturnsRegister : Obligations.RdregReturnsRegister := by
  refine ⟨fun s => ⟨rfl, ?_, rfl, rfl⟩, fun w hopc hreg => ?_⟩
  · rw [← State.statusWord_eq_ite]
    rfl
  · rw [decode_of_opc_nine hopc]
    exact decodeRdreg_error hreg

end Sys2Proof
end

section
/-! SUPPORT. Two runs side by side: two states that differ in the contents of BUF and TXT alone, worked on by the same
procedure, under one bit order or under both. Every procedure keeps them so, whatever relation between the two buffers a
single stored module keeps (R51, R54, R57, R195). -/

namespace Sys2Proof.Machine

/-! ### Twins -/

/-- A relation between CURSOR and two buffers that storing one module at CURSOR keeps, under bit order `o` in the first
buffer and `o'` in the second (R130). -/
def KeptByStore (o o' : BitOrder) (Q : Nat → Memory → Memory → Prop) : Prop :=
  ∀ (c : Nat) (x y : Memory) (v : Module), Q c x y → Q (c + 1) (writeBit o x c v) (writeBit o' y c v)

/-- `t` is `s` but for the contents of TXT, which are `m`, and those of BUF, which `Q` relates at the cursor. -/
def Twin (Q : Nat → Memory → Memory → Prop) (m : Memory) (s t : State) : Prop :=
  ∃ b, t = (s.setBuf b).setTxt m ∧ Q s.cursor s.buf b

variable {Q : Nat → Memory → Memory → Prop} {m : Memory} {s t : State}

theorem Twin.code (h : Twin Q m s t) : t.code = s.code := by obtain ⟨b, rfl, _⟩ := h; rfl

theorem Twin.chk (h : Twin Q m s t) : t.chk = s.chk := by obtain ⟨b, rfl, _⟩ := h; rfl

theorem Twin.err (h : Twin Q m s t) : t.err = s.err := by obtain ⟨b, rfl, _⟩ := h; rfl

theorem Twin.cursor (h : Twin Q m s t) : t.cursor = s.cursor := by obtain ⟨b, rfl, _⟩ := h; rfl

theorem Twin.cap (h : Twin Q m s t) : t.cap = s.cap := by obtain ⟨b, rfl, _⟩ := h; rfl

theorem Twin.pos (h : Twin Q m s t) : t.pos = s.pos := by obtain ⟨b, rfl, _⟩ := h; rfl

theorem Twin.txt (h : Twin Q m s t) : t.txt = m := by obtain ⟨b, rfl, _⟩ := h; rfl

theorem Twin.regView (h : Twin Q m s t) (reg : RegSel) : t.regView reg = s.regView reg := by
  obtain ⟨b, rfl, _⟩ := h
  cases reg <;> rfl

/-- A register update that reads neither space, and changes neither BUF nor CURSOR, keeps twins. -/
theorem Twin.update (h : Twin Q m s t) (f : State → State)
    (hf : ∀ b, f ((s.setBuf b).setTxt m) = ((f s).setBuf b).setTxt m) (hc : (f s).cursor = s.cursor)
    (hb : (f s).buf = s.buf) : Twin Q m (f s) (f t) := by
  obtain ⟨b, rfl, hq⟩ := h
  exact ⟨b, hf b, by rwa [hc, hb]⟩

theorem Twin.flagErr (h : Twin Q m s t) : Twin Q m s.flagErr t.flagErr := h.update _ (fun _ => rfl) rfl rfl

theorem Twin.setCode (h : Twin Q m s t) (cs : CodeSet) : Twin Q m (s.setCode cs) (t.setCode cs) :=
  h.update (State.setCode cs) (fun _ => rfl) rfl rfl

theorem Twin.countSymbol (h : Twin Q m s t) (c : Nat) : Twin Q m (s.countSymbol c) (t.countSymbol c) :=
  h.update (State.countSymbol c) (fun _ => rfl) rfl rfl

theorem Twin.setPos (h : Twin Q m s t) (p : Nat) : Twin Q m (s.setPos p) (t.setPos p) :=
  h.update (State.setPos p) (fun _ => rfl) rfl rfl

theorem Twin.clearPos (h : Twin Q m s t) : Twin Q m s.clearPos t.clearPos := h.update _ (fun _ => rfl) rfl rfl

theorem Twin.respond (h : Twin Q m s t) (code : RespCode) (v : Nat) :
    Twin Q m (s.respond code v) (t.respond code v) :=
  h.update (State.respond code v) (fun _ => rfl) rfl rfl

theorem Twin.setCap (h : Twin Q m s t) (v : Nat) : Twin Q m (s.setCap v) (t.setCap v) :=
  h.update (State.setCap v) (fun _ => rfl) rfl rfl

/-- Run-reset keeps twins when their buffers are related at CURSOR 0 (R190). -/
theorem Twin.runReset (h : Twin Q m s t) (h0 : ∀ c x y, Q c x y → Q 0 x y) : Twin Q m s.runReset t.runReset := by
  obtain ⟨b, rfl, hq⟩ := h
  exact ⟨b, rfl, h0 _ _ _ hq⟩

/-! ### The procedures of the block keep twins -/

section

variable {o o' : BitOrder} (hQ : KeptByStore o o' Q)
include hQ

theorem Twin.writeModule (h : Twin Q m s t) (v : Module) : Twin Q m (writeModule o v s) (writeModule o' v t) := by
  have hroom : t.hasRoom = s.hasRoom := by rw [State.hasRoom, h.cursor, h.cap, State.hasRoom]
  by_cases hs : s.hasRoom = true
  · rw [Machine.writeModule, Machine.writeModule, if_pos hs, if_pos (hroom.trans hs)]
    obtain ⟨b, rfl, hq⟩ := h
    exact ⟨writeBit o' b s.cursor v, rfl, hQ _ _ _ v hq⟩
  · rw [Machine.writeModule, Machine.writeModule, if_neg hs, if_neg (hroom ▸ hs)]
    exact h.flagErr

theorem Twin.writeAll (h : Twin Q m s t) (ms : List Module) : Twin Q m (writeAll o ms s) (writeAll o' ms t) := by
  induction ms generalizing s t with
  | nil => exact h
  | cons v ms ih => exact ih (h.writeModule hQ v)

theorem Twin.appendSymbol (h : Twin Q m s t) (c : Nat) : Twin Q m (appendSymbol o c s) (appendSymbol o' c t) := by
  rcases appendSymbol_cases o c s with ⟨hs, he⟩ | ⟨herr, hcode, he⟩
  · rw [he, appendSymbol_inert o' c (by rwa [h.err, h.code])]
    exact h.flagErr
  · rw [he, appendSymbol_accepted o' c (h.err.trans herr) (h.code ▸ hcode)]
    exact (h.writeAll hQ _).countSymbol c

theorem Twin.changeCode (h : Twin Q m s t) (cs : CodeSet) :
    Twin Q m (changeCode o cs s) (changeCode o' cs t) := by
  unfold Machine.changeCode
  rw [h.code]
  split_ifs
  · exact h
  · cases transitionSym s.code cs with
    | none => exact h.flagErr
    | some c => exact (h.appendSymbol hQ c).setCode cs

/-- A byte step needs TXT to agree below LEN only: the lookahead is bounded by LEN, and the second digit is read when
the window has shown it to lie there (R57, R157, R158). -/
theorem Twin.byteStep (h : Twin Q m s t) (fix : Fix) {len : Nat} (hpos : s.pos < len)
    (htxt : ∀ a < len, m.read a = s.txt.read a) : Twin Q m (byteStep o fix len s) (byteStep o' fix len t) := by
  have hbyte : ∀ a, txtByte m len a = txtByte s.txt len a := fun a => by
    unfold txtByte
    split_ifs with ha
    · rw [htxt a ha]
    · rfl
  have hcompact : compactAt m len s.pos fix s.code = compactAt s.txt len s.pos fix s.code := by
    simp only [compactAt, hbyte]
  simp only [Machine.byteStep, h.txt, h.pos, h.code, htxt _ hpos, hcompact]
  split_ifs with _ hc
  · exact h.flagErr.setPos _
  · rw [htxt _ (compactAt_digits hc).1]
    exact ((h.changeCode hQ _).appendSymbol hQ _).setPos _
  · exact ((h.changeCode hQ _).appendSymbol hQ _).setPos _

theorem Twin.appendLoop (h : Twin Q m s t) (fix : Fix) {len : Nat} (fuel : Nat)
    (htxt : ∀ a < len, m.read a = s.txt.read a) :
    Twin Q m (appendLoop o fix len fuel s) (appendLoop o' fix len fuel t) := by
  induction fuel generalizing s t with
  | zero => exact h
  | succ fuel ih =>
    rw [Machine.appendLoop, Machine.appendLoop, h.pos]
    split_ifs with hpos
    · exact ih (h.byteStep hQ fix hpos htxt) ((Extends.byteStep o fix len s).txt ▸ htxt)
    · exact h

theorem Twin.append (h : Twin Q m s t) (fix : Fix) {len : Nat} (htxt : ∀ a < len, m.read a = s.txt.read a) :
    Twin Q m (append o fix len s) (append o' fix len t) :=
  ((h.setPos 0).appendLoop hQ fix len htxt).clearPos

theorem Twin.ensureStarted (h : Twin Q m s t) : Twin Q m (ensureStarted o s) (ensureStarted o' t) := by
  unfold Machine.ensureStarted
  rw [h.code]
  split_ifs
  · exact h.changeCode hQ .b
  · exact h

theorem Twin.appendCheck (h : Twin Q m s t) : Twin Q m (appendCheck o s) (appendCheck o' t) := by
  rw [Machine.appendCheck, Machine.appendCheck, h.chk]
  exact h.appendSymbol hQ _

theorem Twin.finalize (h : Twin Q m s t) : Twin Q m (finalize o s) (finalize o' t) := by
  by_cases hs : s.code = .stop
  · rw [finalize_stop o hs, finalize_stop o' (h.code.trans hs)]
    exact h
  · rw [finalize_running o hs, finalize_running o' (h.code ▸ hs)]
    exact (((h.ensureStarted hQ).appendCheck hQ).appendSymbol hQ _).setCode .stop

theorem Twin.encodeRun (h : Twin Q m s.runReset t.runReset) (fix : Fix) (qz : Nat) {len : Nat}
    (htxt : ∀ a < len, m.read a = s.txt.read a) :
    Twin Q m (encodeRun o fix qz len s) (encodeRun o' fix qz len t) :=
  (((h.writeAll hQ _).append hQ fix ((Extends.quiet o qz s.runReset).txt ▸ htxt)).finalize hQ).writeAll hQ _

end

/-! ### One command on twins -/

/-- How many bytes of TXT a command may read (R50, R85). -/
def textLength : Instr → Nat
  | .append _ len => len.toNat
  | .encode _ _ len => len.toNat
  | _ => 0

/-- Twins answer a command alike and stay twins, when they agree on the text that the command reads and, for RDMOD, on
the module. -/
theorem Twin.exec (hQ : KeptByStore Config.bitOrder Config.bitOrder Q) (h0 : ∀ c x y, Q c x y → Q 0 x y) (i : Instr)
    (h : Twin Q m s t) (htxt : ∀ a < textLength i, m.read a = s.txt.read a)
    (hmod : ∀ idx, i = .rdmod idx → byteOff idx.toNat < s.cap →
      readModule Config.bitOrder t.buf idx.toNat = readModule Config.bitOrder s.buf idx.toNat) :
    ∃ s' t', exec i s = .next s' ∧ exec i t = .next t' ∧ Twin Q m s' t' := by
  cases i with
  | init cap => exact ⟨_, _, rfl, rfl, ((h.setCap _).runReset h0).respond _ _⟩
  | wrmod pat width =>
    by_cases hw : widthLegal width = true
    · exact ⟨_, _, if_pos hw, if_pos hw, (h.writeAll hQ _).respond _ _⟩
    · exact ⟨_, _, if_neg hw, if_neg hw, h.respond _ _⟩
  | quiet n => exact ⟨_, _, rfl, rfl, (h.writeAll hQ _).respond _ _⟩
  | chcode tgt => exact ⟨_, _, rfl, rfl, (h.changeCode hQ tgt).respond _ _⟩
  | apsym sym =>
    by_cases hs : symLegal sym = true
    · exact ⟨_, _, if_pos hs, if_pos hs, (h.appendSymbol hQ _).respond _ _⟩
    · exact ⟨_, _, if_neg hs, if_neg hs, h.respond _ _⟩
  | append fix len => exact ⟨_, _, rfl, rfl, (h.append hQ fix htxt).respond _ _⟩
  | final => exact ⟨_, _, rfl, rfl, (h.finalize hQ).respond _ _⟩
  | encode fix qz len =>
    have hrun := (h.runReset h0).encodeRun hQ fix qz.toNat (len := len.toNat) htxt
    refine ⟨_, _, rfl, rfl, ?_⟩
    rw [respondCursor, respondCursor, hrun.cursor]
    exact hrun.respond _ _
  | rdreg reg =>
    refine ⟨_, _, rfl, rfl, ?_⟩
    rw [h.regView reg]
    exact h.respond _ _
  | rdmod idx =>
    by_cases hin : byteOff idx.toNat < s.cap
    · refine ⟨_, _, if_pos hin, if_pos (h.cap ▸ hin), ?_⟩
      rw [hmod idx rfl hin]
      exact h.respond _ _
    · exact ⟨_, _, if_neg hin, if_neg (h.cap ▸ hin), h.respond _ _⟩

end Sys2Proof.Machine
end

section
/-! SUPPORT. The relations between two buffers that a stored module keeps: equal bytes below a bound (R54), and the same
modules under the two bit orders (R51). -/

namespace Sys2Proof.Machine

@[simp] theorem runStart_buf (i : Instr) (s : State) : (runStart i s).buf = s.buf := by cases i <;> rfl

/-- No command writes a byte at or beyond the CAP in force (R54). -/
theorem exec_buf_beyond {i : Instr} {s t : State} (he : exec i s = .next t) {a : Nat} (ha : s.cap ≤ a) :
    t.buf.read a = s.buf.read a := by
  by_cases hi : ∃ cap, i = .init cap
  · obtain ⟨cap, rfl⟩ := hi
    obtain rfl := Host.Outcome.next.inj he
    rfl
  · obtain ⟨code, v, u, rfl, hext, _⟩ := exec_next_extends he
    have hcap := runStart_cap (not_exists.1 hi) s
    exact (hext.beyond a (hcap ▸ ha)).trans (congrArg (Memory.read · a) (runStart_buf i s))

/-- Two canonical buffers that hold the same bytes below `lim`. -/
def AgreeBelow (lim : Nat) (x y : Memory) : Prop :=
  x.wf = true ∧ y.wf = true ∧ ∀ a < lim, y.read a = x.read a

theorem keptByStore_agreeBelow (o : BitOrder) (lim : Nat) : KeptByStore o o (fun _ => AgreeBelow lim) := by
  intro c x y v ⟨hx, hy, heq⟩
  refine ⟨Memory.write_wf _ _ hx, Memory.write_wf _ _ hy, fun a ha => ?_⟩
  unfold writeBit
  by_cases hac : a = byteOff c
  · subst hac
    rw [Memory.read_write_same _ _ hx, Memory.read_write_same _ _ hy, heq _ ha]
  · rw [Memory.read_write_other hac, Memory.read_write_other hac, heq a ha]

/-- Storing a module leaves the module at every other index alone (R51, R56). -/
theorem readModule_writeBit_of_ne (o : BitOrder) {buf : Memory} (hw : buf.wf = true) {i j : Nat} (h : j ≠ i)
    (v : Module) : readModule o (writeBit o buf i v) j = readModule o buf j := by
  refine readModule_writeBit_other o o hw v ?_
  by_contra hsame
  simp only [not_or, not_not] at hsame
  exact h (module_address_injective o hsame.1 hsame.2)

/-- Two canonical buffers that hold the same modules from index `lo` up to the cursor, the first in the order MSB_FIRST
and the second in the order LSB_FIRST. -/
def SameSequence (lo cursor : Nat) (x y : Memory) : Prop :=
  x.wf = true ∧ y.wf = true ∧ ∀ j, lo ≤ j → j < cursor → readModule .lsbFirst y j = readModule .msbFirst x j

theorem sameSequence_self {buf : Memory} (hw : buf.wf = true) (lo : Nat) : SameSequence lo lo buf buf :=
  ⟨hw, hw, fun _ hlo hlt => absurd hlt (Nat.not_lt_of_le hlo)⟩

theorem keptByStore_sameSequence (lo : Nat) : KeptByStore .msbFirst .lsbFirst (SameSequence lo) := by
  intro c x y v ⟨hx, hy, heq⟩
  refine ⟨Memory.write_wf _ _ hx, Memory.write_wf _ _ hy, fun j hlo hlt => ?_⟩
  by_cases hjc : j = c
  · subst hjc
    rw [readModule_writeBit_same _ hx, readModule_writeBit_same _ hy]
  · rw [readModule_writeBit_of_ne _ hx hjc, readModule_writeBit_of_ne _ hy hjc]
    exact heq j hlo (by omega)

@[simp] theorem appendSymbol_txt (o : BitOrder) (c : Nat) (s : State) : (appendSymbol o c s).txt = s.txt := by
  rcases appendSymbol_cases o c s with ⟨_, he⟩ | ⟨_, _, he⟩ <;> simp [he]

/-- Putting back the text that a state already holds leaves a change of BUF alone. -/
theorem State.setTxt_of_txt_eq {s : State} {m : Memory} (h : s.txt = m) (b : Memory) :
    (s.setBuf b).setTxt m = { s with buf := b } := by
  subst h
  rfl

/-- A procedure that keeps TXT, and keeps twins over the two bit orders, stores the same modules under both. -/
theorem sameModules_of_twin {P : BitOrder → State → State} (htxt : ∀ s, (P .msbFirst s).txt = s.txt)
    (hP : ∀ lo s, Twin (SameSequence lo) s.txt s s →
      Twin (SameSequence lo) s.txt (P .msbFirst s) (P .lsbFirst s)) : SameModules P := by
  intro s hw
  obtain ⟨b, he, _, _, heq⟩ := hP s.cursor s ⟨s.buf, rfl, sameSequence_self hw s.cursor⟩
  exact ⟨b, he.trans (State.setTxt_of_txt_eq (htxt s) b), heq⟩

end Sys2Proof.Machine
end

section
/-! SUPPORT. The statements about the two spaces: module addressing, the bounds of BUF and of TXT, and the bit order. -/

namespace Sys2Proof

open Machine

/-- Settles O13: the shift and the mask are the quotient and the remainder by 8. -/
theorem moduleAddressing : Obligations.ModuleAddressing := by
  refine ⟨rfl, fun buf i => ?_⟩
  have hoff : i >>> 3 = i / 8 := Nat.shiftRight_eq_div_pow i 3
  have hbit : i &&& 7 = i % 8 := Nat.and_two_pow_sub_one_eq_mod i 3
  rw [hoff, hbit]
  exact ⟨rfl, rfl⟩

/-- Settles O19: writes go through `Extends`; and two runs from buffers that agree below CAP are twins, whose RDMOD
reads below CAP. -/
theorem noAccessBeyondCapacity : Obligations.NoAccessBeyondCapacity := by
  refine fun i s t he => ⟨fun a ha => exec_buf_beyond he ha, fun m hs hm heq => ?_⟩
  have htwin : Twin (fun _ => AgreeBelow s.cap) s.txt s { s with buf := m } := ⟨m, rfl, hs, hm, heq⟩
  have hmod (idx : BitVec 28) (hin : byteOff idx.toNat < s.cap) :
      readModule Config.bitOrder m idx.toNat = readModule Config.bitOrder s.buf idx.toNat := by
    rw [readModule, heq _ hin, readModule]
  obtain ⟨s', t', hs', ht', b, rfl, _, _, hb⟩ := htwin.exec (keptByStore_agreeBelow _ s.cap) (fun _ _ _ => id) i
    (fun _ _ => rfl) (fun idx _ => hmod idx)
  obtain rfl := Host.Outcome.next.inj (he.symm.trans hs')
  have htxt : t.txt = s.txt := (commandFrames i s t he).1
  exact ⟨b, ht'.trans (congrArg _ (State.setTxt_of_txt_eq htxt b)), hb⟩

/-- Settles O52: each procedure keeps twins over the two bit orders; ENCODE from the empty sequence of its
run-reset. -/
theorem bitOrderMovesOnlyBits : Obligations.BitOrderMovesOnlyBits := by
  refine ⟨fun p w => ?_, fun n => ?_, fun c => ?_, fun cs => ?_, fun fix len => ?_, ?_, fun fix qz len s hw => ?_⟩
  · exact sameModules_of_twin (writeAll_txt _ _) fun lo _ h => h.writeAll (keptByStore_sameSequence lo) _
  · exact sameModules_of_twin (writeAll_txt _ _) fun lo _ h => h.writeAll (keptByStore_sameSequence lo) _
  · exact sameModules_of_twin (appendSymbol_txt _ c) fun lo _ h => h.appendSymbol (keptByStore_sameSequence lo) c
  · exact sameModules_of_twin (fun s => (Extends.changeCode _ cs s).txt)
      fun lo _ h => h.changeCode (keptByStore_sameSequence lo) cs
  · exact sameModules_of_twin (fun s => (Extends.append _ fix len s).txt)
      fun lo _ h => h.append (keptByStore_sameSequence lo) fix fun _ _ => rfl
  · exact sameModules_of_twin (fun s => (Extends.finalize _ s).txt)
      fun lo _ h => h.finalize (keptByStore_sameSequence lo)
  · have hstart : Twin (SameSequence 0) s.txt s.runReset s.runReset := ⟨s.buf, rfl, sameSequence_self hw 0⟩
    obtain ⟨b, he, _, _, heq⟩ := hstart.encodeRun (keptByStore_sameSequence 0) fix qz (len := len) fun _ _ => rfl
    have htxt := (Extends.encodeRun .msbFirst fix qz len s).txt
    exact ⟨b, he.trans (State.setTxt_of_txt_eq htxt b), fun j => heq j (Nat.zero_le j)⟩

/-- Settles O53: two runs from equal buffers over texts that agree below LEN are twins, with equal buffers throughout. -/
theorem textReadOnlyBelowLen : Obligations.TextReadOnlyBelowLen := by
  intro i s t m he happend hencode
  have hread : ∀ a < textLength i, m.read a = s.txt.read a := by
    cases i with
    | append fix len => exact happend fix len rfl
    | encode fix qz len => exact hencode fix qz len rfl
    | _ => exact fun a ha => absurd ha (Nat.not_lt_zero a)
  have hstore : KeptByStore Config.bitOrder Config.bitOrder (fun _ x y => y = x) :=
    fun c _ _ v h => congrArg (fun z => writeBit Config.bitOrder z c v) h
  have htwin : Twin (fun _ x y => y = x) m s { s with txt := m } := ⟨s.buf, rfl, rfl⟩
  obtain ⟨s', t', hs', ht', b, rfl, rfl⟩ := htwin.exec hstore (fun _ _ _ => id) i hread (fun _ _ _ => rfl)
  obtain rfl := Host.Outcome.next.inj (he.symm.trans hs')
  exact ht'

end Sys2Proof
end

section
/-! SUPPORT. The decoder by opcode (R80 to R84, R91): the ten formats as one table, when each of them answers a command
and when it rejects, and from these the two directions between words and commands. -/

namespace Sys2Proof

open Sys2Proof.Laws.EncodeOpcode (opcodeOf)

/-! ### The dispatch on the opcode -/

/-- The format decoder that an opcode selects (R82). -/
def decodeFormat : Nat → Word → Except DecodeError Instr
  | 0x1 => decodeInit
  | 0x2 => decodeWrmod
  | 0x3 => decodeQuiet
  | 0x4 => decodeChcode
  | 0x5 => decodeApsym
  | 0x6 => decodeAppend
  | 0x7 => decodeFinal
  | 0x8 => decodeEncode
  | 0x9 => decodeRdreg
  | 0xA => decodeRdmod
  | _ => fun _ => .error .reservedOpcode

theorem decode_eq_decodeFormat (w : Word) : decode w = decodeFormat (opc w).toNat w := by
  unfold decode
  generalize opc w = v
  obtain ⟨n, hn⟩ := v
  interval_cases n <;> rfl

/-! ### What a guarded decoder answers -/

theorem reservedClear_eq_false_iff (w : Word) (lo len : Nat) :
    reservedClear w lo len = false ↔ field w lo len ≠ 0 :=
  decide_eq_false_iff_not

theorem widthLegal_eq_false_iff (v : BitVec 5) : widthLegal v = false ↔ 16 < v.toNat := by
  rw [widthLegal, decide_eq_false_iff_not, Nat.not_le]

theorem symLegal_eq_false_iff (v : BitVec 7) : symLegal v = false ↔ 106 < v.toNat := by
  rw [symLegal, decide_eq_false_iff_not, Nat.not_lt, Nat.succ_le_iff]

/-- A guarded decoder answers what its body answers, when the guard holds. -/
theorem guard_ok_iff {α : Type} {g : Bool} {x : Except DecodeError α} {r : DecodeError} {a : α} :
    (if g then x else .error r) = .ok a ↔ g = true ∧ x = .ok a := by
  cases g <;> simp

theorem guard_error_iff {α : Type} {g : Bool} {x : Except DecodeError α} {r : DecodeError} :
    (∃ e, (if g then x else .error r) = .error e) ↔ g = false ∨ ∃ e, x = .error e := by
  cases g <;> simp

theorem map_ok_iff {α β : Type} {x : Except DecodeError α} {f : α → β} {b : β} :
    x.map f = .ok b ↔ ∃ a, x = .ok a ∧ f a = b := by
  cases x <;> simp [Except.map]

theorem map_error_iff {α β : Type} {x : Except DecodeError α} {f : α → β} :
    (∃ e, x.map f = .error e) ↔ ∃ e, x = .error e := by
  cases x <;> simp [Except.map]

theorem exists_ok_iff_not_error {α : Type} {x : Except DecodeError α} :
    (∃ a, x = .ok a) ↔ ¬ ∃ e, x = .error e := by
  cases x <;> simp

/-! ### Format by format: the command answered -/

variable {w : Word} {i : Instr}

@[simp] theorem decodeInit_ok_iff : decodeInit w = .ok i ↔
    reservedClear w 24 4 = true ∧ .init (field w 0 24) = i := by
  simp [decodeInit, guard_ok_iff]

@[simp] theorem decodeWrmod_ok_iff : decodeWrmod w = .ok i ↔
    reservedClear w 21 7 = true ∧ widthLegal (field w 16 5) = true ∧ .wrmod (field w 0 16) (field w 16 5) = i := by
  simp [decodeWrmod, guard_ok_iff]

@[simp] theorem decodeQuiet_ok_iff : decodeQuiet w = .ok i ↔
    reservedClear w 16 12 = true ∧ .quiet (field w 0 16) = i := by
  simp [decodeQuiet, guard_ok_iff]

@[simp] theorem decodeChcode_ok_iff : decodeChcode w = .ok i ↔
    reservedClear w 3 25 = true ∧ ∃ tgt : CodeSet, (field w 0 3).toNat = tgt.number ∧ .chcode tgt = i := by
  simp [decodeChcode, guard_ok_iff, map_ok_iff, CodeSet.ofField_ok_iff]

@[simp] theorem decodeApsym_ok_iff : decodeApsym w = .ok i ↔
    reservedClear w 7 21 = true ∧ symLegal (field w 0 7) = true ∧ .apsym (field w 0 7) = i := by
  simp [decodeApsym, guard_ok_iff]

@[simp] theorem decodeAppend_ok_iff : decodeAppend w = .ok i ↔
    (reservedClear w 27 1 = true ∧ reservedClear w 16 8 = true) ∧
      ∃ fix : Fix, (field w 24 3).toNat = fix.number ∧ .append fix (field w 0 16) = i := by
  rw [decodeAppend, guard_ok_iff, Bool.and_eq_true]
  simp [map_ok_iff, Fix.ofField_ok_iff]

@[simp] theorem decodeFinal_ok_iff : decodeFinal w = .ok i ↔ reservedClear w 0 28 = true ∧ .final = i := by
  simp [decodeFinal, guard_ok_iff]

@[simp] theorem decodeEncode_ok_iff : decodeEncode w = .ok i ↔ reservedClear w 27 1 = true ∧
    ∃ fix : Fix, (field w 24 3).toNat = fix.number ∧ .encode fix (field w 16 8) (field w 0 16) = i := by
  simp [decodeEncode, guard_ok_iff, map_ok_iff, Fix.ofField_ok_iff]

@[simp] theorem decodeRdreg_ok_iff : decodeRdreg w = .ok i ↔
    reservedClear w 3 25 = true ∧ ∃ reg : RegSel, (field w 0 3).toNat = reg.number ∧ .rdreg reg = i := by
  simp [decodeRdreg, guard_ok_iff, map_ok_iff, RegSel.ofField_ok_iff]

@[simp] theorem decodeRdmod_ok_iff : decodeRdmod w = .ok i ↔ .rdmod (field w 0 28) = i := by
  simp [decodeRdmod]

/-- A format decoder answers commands of its own opcode only (R82). -/
theorem opcodeOf_of_decodeFormat {n : Nat} (h : decodeFormat n w = .ok i) : n = opcodeOf i := by
  unfold decodeFormat at h
  split at h
  · obtain ⟨_, rfl⟩ := decodeInit_ok_iff.1 h; rfl
  · obtain ⟨_, _, rfl⟩ := decodeWrmod_ok_iff.1 h; rfl
  · obtain ⟨_, rfl⟩ := decodeQuiet_ok_iff.1 h; rfl
  · obtain ⟨_, _, _, rfl⟩ := decodeChcode_ok_iff.1 h; rfl
  · obtain ⟨_, _, rfl⟩ := decodeApsym_ok_iff.1 h; rfl
  · obtain ⟨_, _, _, rfl⟩ := decodeAppend_ok_iff.1 h; rfl
  · obtain ⟨_, rfl⟩ := decodeFinal_ok_iff.1 h; rfl
  · obtain ⟨_, _, _, rfl⟩ := decodeEncode_ok_iff.1 h; rfl
  · obtain ⟨_, _, _, rfl⟩ := decodeRdreg_ok_iff.1 h; rfl
  · obtain rfl := decodeRdmod_ok_iff.1 h; rfl
  · cases h

theorem decode_ok_iff_decodeFormat :
    decode w = .ok i ↔ w.toNat / 2 ^ 28 = opcodeOf i ∧ decodeFormat (opcodeOf i) w = .ok i := by
  rw [decode_eq_decodeFormat, opc_toNat]
  constructor
  · intro h
    have hopc := opcodeOf_of_decodeFormat h
    exact ⟨hopc, hopc ▸ h⟩
  · rintro ⟨hopc, h⟩
    rwa [hopc]

/-- A word decodes to a command exactly when the command is well formed and the word is its number: opcode, zeros in the
reserved bits, and the operands in their fields (R81, R91, R101). -/
theorem decode_ok_iff_toNat : decode w = .ok i ↔ i.wf = true ∧ w.toNat = encodeNat i := by
  rw [decode_ok_iff_decodeFormat]
  have hw := w.isLt
  cases i <;> simp [opcodeOf, decodeFormat, reservedClear_iff, field_eq_iff, field_toNat, widthLegal, symLegal,
    Instr.wf, encodeNat]
  case init cap => have := cap.isLt; omega
  case wrmod pat width => have := pat.isLt; have := width.isLt; omega
  case quiet n => have := n.isLt; omega
  case chcode tgt => have := tgt.number_lt; omega
  case apsym sym => have := sym.isLt; omega
  case append fix len => have := fix.number_lt; have := len.isLt; omega
  case final => omega
  case encode fix qz len => have := fix.number_lt; have := qz.isLt; have := len.isLt; omega
  case rdreg reg => have := reg.number_lt; omega
  case rdmod idx => have := idx.isLt; omega

theorem decode_ok_iff : decode w = .ok i ↔ i.wf = true ∧ encode i = w := by
  rw [decode_ok_iff_toNat, ← encode_toNat, BitVec.toNat_inj, eq_comm (a := w)]

/-! ### Format by format: the rejection -/

@[simp] theorem decodeInit_error_iff : (∃ e, decodeInit w = .error e) ↔ field w 24 4 ≠ 0 := by
  simp [decodeInit, guard_error_iff, reservedClear_eq_false_iff]

@[simp] theorem decodeWrmod_error_iff : (∃ e, decodeWrmod w = .error e) ↔
    field w 21 7 ≠ 0 ∨ 16 < (field w 16 5).toNat := by
  simp only [decodeWrmod, guard_error_iff, reservedClear_eq_false_iff, widthLegal_eq_false_iff]
  simp

@[simp] theorem decodeQuiet_error_iff : (∃ e, decodeQuiet w = .error e) ↔ field w 16 12 ≠ 0 := by
  simp [decodeQuiet, guard_error_iff, reservedClear_eq_false_iff]

@[simp] theorem decodeChcode_error_iff : (∃ e, decodeChcode w = .error e) ↔
    field w 3 25 ≠ 0 ∨ 4 < (field w 0 3).toNat := by
  simp [decodeChcode, guard_error_iff, reservedClear_eq_false_iff, map_error_iff, CodeSet.ofField_error_iff]

@[simp] theorem decodeApsym_error_iff : (∃ e, decodeApsym w = .error e) ↔
    field w 7 21 ≠ 0 ∨ 106 < (field w 0 7).toNat := by
  simp only [decodeApsym, guard_error_iff, reservedClear_eq_false_iff, symLegal_eq_false_iff]
  simp

@[simp] theorem decodeAppend_error_iff : (∃ e, decodeAppend w = .error e) ↔
    field w 27 1 ≠ 0 ∨ field w 16 8 ≠ 0 ∨ 3 < (field w 24 3).toNat := by
  rw [decodeAppend, guard_error_iff, map_error_iff, Fix.ofField_error_iff, Bool.and_eq_false_iff,
    reservedClear_eq_false_iff, reservedClear_eq_false_iff, or_assoc]

@[simp] theorem decodeFinal_error_iff : (∃ e, decodeFinal w = .error e) ↔ field w 0 28 ≠ 0 := by
  simp [decodeFinal, guard_error_iff, reservedClear_eq_false_iff]

@[simp] theorem decodeEncode_error_iff : (∃ e, decodeEncode w = .error e) ↔
    field w 27 1 ≠ 0 ∨ 3 < (field w 24 3).toNat := by
  simp [decodeEncode, guard_error_iff, reservedClear_eq_false_iff, map_error_iff, Fix.ofField_error_iff]

@[simp] theorem decodeRdreg_error_iff : (∃ e, decodeRdreg w = .error e) ↔
    field w 3 25 ≠ 0 ∨ 3 < (field w 0 3).toNat := by
  simp [decodeRdreg, guard_error_iff, reservedClear_eq_false_iff, map_error_iff, RegSel.ofField_error_iff]

@[simp] theorem decodeRdmod_ne_error : ¬ ∃ e, decodeRdmod w = .error e := by
  simp [decodeRdmod]

end Sys2Proof
end

section
/-! SUPPORT. The match and mask table of R83: a mask is a union of fields, so a word meets a match and a mask when
each of those fields agrees. -/

namespace Sys2Proof

open Sys2Proof.Laws.EncodeOpcode (opcodeOf)

/-! ### Masks as unions of fields -/

/-- The word whose ones are the bits of the field `w[lo+len-1 : lo]` (R7). -/
def fieldMask (lo len : Nat) : Word := (BitVec.allOnes len).setWidth 32 <<< lo

/-- The union of the masks of a list of fields, each as its lowest bit and its length. -/
def fieldsMask : List (Nat × Nat) → Word
  | [] => 0
  | f :: fs => fieldMask f.1 f.2 ||| fieldsMask fs

theorem getLsbD_fieldMask (lo len k : Nat) :
    (fieldMask lo len).getLsbD k = true ↔ k < 32 ∧ lo ≤ k ∧ k < lo + len := by
  simp only [fieldMask, BitVec.getLsbD_shiftLeft, BitVec.getLsbD_setWidth, BitVec.getLsbD_allOnes, Bool.and_eq_true,
    decide_eq_true_eq, Bool.not_eq_true', decide_eq_false_iff_not]
  omega

/-- Two words agree under a mask exactly when they agree in each bit of it. -/
theorem and_eq_and_iff_getLsbD (w p m : Word) :
    w &&& m = p &&& m ↔ ∀ k < 32, m.getLsbD k = true → w.getLsbD k = p.getLsbD k := by
  rw [BitVec.eq_of_getLsbD_eq_iff]
  refine forall₂_congr fun k _ => ?_
  cases h : m.getLsbD k <;> simp [h]

/-- Agreement under a union of masks is agreement under both. -/
theorem and_or_eq_iff (w p m n : Word) :
    w &&& (m ||| n) = p &&& (m ||| n) ↔ w &&& m = p &&& m ∧ w &&& n = p &&& n := by
  simp only [and_eq_and_iff_getLsbD, BitVec.getLsbD_or, Bool.or_eq_true, or_imp, forall_and]

/-- Agreement under the mask of a field is agreement in the field. -/
theorem and_fieldMask_eq_iff (w p : Word) (lo len : Nat) :
    w &&& fieldMask lo len = p &&& fieldMask lo len ↔ field w lo len = field p lo len := by
  rw [and_eq_and_iff_getLsbD]
  constructor
  · intro h
    ext k hk
    by_cases hin : lo + k < 32
    · simpa [field] using h (lo + k) hin ((getLsbD_fieldMask lo len _).2 ⟨hin, by omega, by omega⟩)
    · simp [field, BitVec.getLsbD_of_ge _ _ (Nat.le_of_not_lt hin)]
  · intro h k _ hmask
    obtain ⟨_, hlo, hhi⟩ := (getLsbD_fieldMask lo len k).1 hmask
    have hbit := congrArg (BitVec.getLsbD · (k - lo)) h
    simpa [field, show k - lo < len by omega, Nat.add_sub_cancel' hlo] using hbit

theorem and_fieldsMask_eq_iff (w p : Word) (fs : List (Nat × Nat)) :
    w &&& fieldsMask fs = p &&& fieldsMask fs ↔ ∀ f ∈ fs, field w f.1 f.2 = field p f.1 f.2 := by
  induction fs with
  | nil => simp [fieldsMask]
  | cons f fs ih => simp [fieldsMask, and_or_eq_iff, and_fieldMask_eq_iff, ih]

/-! ### The rows of the table -/

/-- The reserved fields of a command's format, each as its lowest bit and its length (R81). -/
def reservedFields : Instr → List (Nat × Nat)
  | .init _ => [(24, 4)]
  | .wrmod _ _ => [(21, 7)]
  | .quiet _ => [(16, 12)]
  | .chcode _ => [(3, 25)]
  | .apsym _ => [(7, 21)]
  | .append _ _ => [(27, 1), (16, 8)]
  | .final => [(0, 28)]
  | .encode _ _ _ => [(27, 1)]
  | .rdreg _ => [(3, 25)]
  | .rdmod _ => []

variable {w : Word} {i j : Instr}

/-- A mask of the table covers the opcode and the reserved fields (R81, R83). -/
theorem rowOf_mask (j : Instr) : (rowOf j).mask = fieldsMask ((28, 4) :: reservedFields j) := by
  cases j <;> simp only [rowOf, reservedFields] <;> decide

/-- The match of a row is the opcode over zeros (R83). -/
theorem rowOf_pattern (j : Instr) : (rowOf j).pattern = BitVec.ofNat 32 (opcodeOf j * 2 ^ 28) := by
  cases j <;> simp only [rowOf, opcodeOf] <;> decide

theorem opc_rowOf_pattern (j : Instr) : (opc (rowOf j).pattern).toNat = opcodeOf j := by
  cases j <;> simp only [rowOf, opcodeOf] <;> decide

theorem field_rowOf_pattern (j : Instr) : ∀ f ∈ reservedFields j, field (rowOf j).pattern f.1 f.2 = 0 := by
  cases j <;> simp only [rowOf, reservedFields] <;> decide

theorem rowOf_pattern_and_mask (j : Instr) : (rowOf j).pattern &&& (rowOf j).mask = (rowOf j).pattern := by
  cases j <;> simp only [rowOf] <;> decide

theorem rowOf_pattern_eq_iff : (rowOf i).pattern = (rowOf j).pattern ↔ opcodeOf i = opcodeOf j := by
  constructor
  · intro h
    rw [← opc_rowOf_pattern i, h, opc_rowOf_pattern]
  · intro h
    rw [rowOf_pattern, h, rowOf_pattern]

/-- A word meets the match and the mask of a row when it carries the opcode and zeros in the reserved fields (R81). -/
theorem and_mask_eq_pattern_iff : w &&& (rowOf j).mask = (rowOf j).pattern ↔
    (opc w).toNat = opcodeOf j ∧ ∀ f ∈ reservedFields j, field w f.1 f.2 = 0 := by
  have hfields : (∀ f ∈ reservedFields j, field w f.1 f.2 = field (rowOf j).pattern f.1 f.2) ↔
      ∀ f ∈ reservedFields j, field w f.1 f.2 = 0 :=
    forall₂_congr fun f hf => by rw [field_rowOf_pattern j f hf]
  calc w &&& (rowOf j).mask = (rowOf j).pattern
      ↔ w &&& (rowOf j).mask = (rowOf j).pattern &&& (rowOf j).mask := by rw [rowOf_pattern_and_mask]
    _ ↔ opc w = opc (rowOf j).pattern ∧
        ∀ f ∈ reservedFields j, field w f.1 f.2 = field (rowOf j).pattern f.1 f.2 := by
      rw [rowOf_mask, and_fieldsMask_eq_iff, List.forall_mem_cons]; rfl
    _ ↔ _ := by rw [hfields, ← BitVec.toNat_inj, opc_rowOf_pattern]

/-- A format decoder answers a command when the reserved fields are clear and the field check of its row holds. -/
theorem decodeFormat_isOk_iff (w : Word) (j : Instr) : (∃ i, decodeFormat (opcodeOf j) w = .ok i) ↔
    (∀ f ∈ reservedFields j, field w f.1 f.2 = 0) ∧ (rowOf j).check w = true := by
  rw [exists_ok_iff_not_error]
  cases j <;> simp [opcodeOf, decodeFormat, reservedFields, rowOf, and_assoc]

/-- The commands of one row are those of its opcode. -/
theorem decode_row_iff (w : Word) (j : Instr) :
    (∃ i, decode w = .ok i ∧ (rowOf i).pattern = (rowOf j).pattern) ↔
      (opc w).toNat = opcodeOf j ∧ ∃ i, decodeFormat (opcodeOf j) w = .ok i := by
  rw [decode_eq_decodeFormat]
  constructor
  · rintro ⟨i, hdec, hpat⟩
    have hopc : (opc w).toNat = opcodeOf j := (opcodeOf_of_decodeFormat hdec).trans (rowOf_pattern_eq_iff.1 hpat)
    exact ⟨hopc, i, hopc ▸ hdec⟩
  · rintro ⟨hopc, i, hdec⟩
    exact ⟨i, hopc ▸ hdec, rowOf_pattern_eq_iff.2 (opcodeOf_of_decodeFormat hdec).symm⟩

theorem rowOf_accepts_iff (w : Word) (j : Instr) : (rowOf j).accepts w ↔
    (opc w).toNat = opcodeOf j ∧ ∃ i, decodeFormat (opcodeOf j) w = .ok i := by
  rw [Row.accepts, and_mask_eq_pattern_iff, decodeFormat_isOk_iff, and_assoc]

end Sys2Proof
end

section
/-! SUPPORT. The statements about command words: the round trip, the table of R83 and the illegal words. -/

namespace Sys2Proof

open Machine

/-- Settles O1: the word of a well-formed command decodes to it. -/
theorem encodingRoundTrip : Obligations.EncodingRoundTrip := fun _ hwf => decode_ok_iff.2 ⟨hwf, rfl⟩

/-- Settles O2: and it is the only word that does. -/
theorem decodedWordReencodes : Obligations.DecodedWordReencodes := fun _ _ => decode_ok_iff.1

/-- Settles O3: a row accepts the words of its opcode that its format decodes; and the match of a row fixes the
opcode. -/
theorem decodeFollowsMatchMaskTable : Obligations.DecodeFollowsMatchMaskTable := by
  refine ⟨fun w j => (rowOf_accepts_iff w j).trans (decode_row_iff w j).symm, fun w i j hi hj => ?_⟩
  obtain ⟨hopci, _⟩ := and_mask_eq_pattern_iff.1 hi
  obtain ⟨hopcj, _⟩ := and_mask_eq_pattern_iff.1 hj
  exact rowOf_pattern_eq_iff.2 (hopci.symm.trans hopcj)

/-- Settles O4: the illegal words opcode by opcode; the step takes the move and refuses the word. -/
theorem illegalWordsAreRefused : Obligations.IllegalWordsAreRefused := by
  refine fun w => ⟨?_, fun s ms hagenda ⟨e, he⟩ => ?_⟩
  · rw [decode_eq_decodeFormat]
    have hlt := (opc w).isLt
    generalize (opc w).toNat = n at hlt
    interval_cases n <;> simp [decodeFormat]
  · calc step s = runWord w (s.setAgenda ms) := step_of_agenda_cons hagenda
      _ = .next ((s.setAgenda ms).refuse .illegal) := runWord_of_decode_error he _

end Sys2Proof
end

section
/-! SUPPORT. The response of every command (R90), and the pseudo-instructions that write a symbol's bars or read a
register (R102). -/

namespace Sys2Proof.Machine

variable {i : Instr} {s t : State}

/-! ### The response of a command -/

/-- What a command that leads from `s` to `t` answers (R90). -/
def responseOf (s t : State) : Instr → Response
  | .wrmod _ width => ⟨if widthLegal width then .ok else .illegal, 0⟩
  | .apsym sym => ⟨if symLegal sym then .ok else .illegal, 0⟩
  | .encode _ _ _ => ⟨.ok, BitVec.ofNat 32 t.cursor⟩
  | .rdreg reg => ⟨.ok, BitVec.ofNat 32 (s.regView reg)⟩
  | .rdmod idx =>
    if byteOff idx.toNat < s.cap then ⟨.ok, BitVec.ofNat 32 (readModule Config.bitOrder s.buf idx.toNat).toNat⟩
    else ⟨.range, 0⟩
  | _ => ⟨.ok, 0⟩

theorem eq_ite_of_ite_next {c : Prop} [Decidable c] {a b : State}
    (h : (if c then .next a else .next b : Host.Outcome State Fault Refusal) = .next t) : t = if c then a else b := by
  split_ifs at h ⊢ <;> exact (Host.Outcome.next.inj h).symm

theorem exec_response (h : exec i s = .next t) : t.response = some (responseOf s t i) := by
  cases i with
  | wrmod _ _ | apsym _ | rdmod _ =>
    obtain rfl := eq_ite_of_ite_next h
    simp only [responseOf]
    split_ifs <;> rfl
  | _ => obtain rfl := Host.Outcome.next.inj h; rfl

/-! ### The bars of a symbol as a WRMOD -/

theorem foldl_modules_lt (ms : List Module) (n : Nat) :
    ms.foldl (fun n m => 2 * n + m.toNat) n < (n + 1) * 2 ^ ms.length := by
  induction ms generalizing n with
  | nil => simp
  | cons m ms ih =>
    refine Nat.lt_of_lt_of_le (ih (2 * n + m.toNat)) ?_
    rw [List.length_cons, Nat.pow_succ', ← Nat.mul_assoc]
    have := Bool.toNat_le m
    exact Nat.mul_le_mul_right _ (by omega)

/-- A pattern word has no more binary digits than modules (R113). -/
theorem modulesToNat_lt (ms : List Module) : modulesToNat ms < 2 ^ ms.length := by
  simpa [modulesToNat] using foldl_modules_lt ms 0

theorem symModules_length_eq {c : Nat} (h : c ≤ 106) : (symModules c).length = if c = 106 then 13 else 11 :=
  (symWidths_range c (Nat.lt_succ_of_le h)).1

/-- The width of a symbol is a legal WIDTH (R110, R134). -/
theorem symRom_width_le {c : Nat} (h : c ≤ 106) : (symRom c).width ≤ 16 := by
  change (symModules c).length ≤ 16
  rw [symModules_length_eq h]
  split_ifs <;> decide

theorem symRom_pat_lt {c : Nat} (h : c ≤ 106) : (symRom c).pat < 2 ^ 16 :=
  Nat.lt_of_lt_of_le (modulesToNat_lt (symModules c)) (Nat.pow_le_pow_right (by decide) (symRom_width_le h))

theorem exec_wrmod_of_le {width : BitVec 5} (h : width.toNat ≤ 16) (pat : BitVec 16) (s : State) :
    exec (.wrmod pat width) s = .next ((writeModules Config.bitOrder pat.toNat width.toNat s).respond .ok 0) :=
  if_pos (decide_eq_true h)

/-- WRSYM offers the modules of the symbol to the sink (R102, R131). -/
theorem exec_wrsym {c : Nat} (h : c ≤ 106) (s : State) :
    exec (Pseudo.wrsym c).expansion s = .next ((writeAll Config.bitOrder (symModules c) s).respond .ok 0) := by
  have hwidth := symRom_width_le h
  have hpatNat : (BitVec.ofNat 16 (symRom c).pat).toNat = (symRom c).pat := Nat.mod_eq_of_lt (symRom_pat_lt h)
  have hwidthNat : (BitVec.ofNat 5 (symRom c).width).toNat = (symRom c).width := Nat.mod_eq_of_lt (by omega)
  rw [Pseudo.expansion, exec_wrmod_of_le (hwidthNat.trans_le hwidth), hpatNat, hwidthNat, writeModules, symRom_modules]

/-- Bit 0 of STATUS is ERR (R31). -/
theorem statusWord_and_one (s : State) :
    BitVec.ofNat 32 s.statusWord &&& 1#32 = if s.err = true then 1 else 0 := by
  have hmod : s.statusWord % 2 = s.err.toNat := by
    have := Bool.toNat_le s.err
    unfold State.statusWord
    omega
  apply BitVec.eq_of_toNat_eq
  rw [BitVec.toNat_and, BitVec.toNat_ofNat, BitVec.toNat_ofNat, Nat.and_one_is_mod,
    Nat.mod_mod_of_dvd _ (by decide), hmod]
  cases s.err <;> rfl

end Sys2Proof.Machine

namespace Sys2Proof

open Machine

/-- Settles O58: WRSYM is a run of the symbol's modules, 13 for STOP and 11 for the others, and the sink leaves the
encoder alone. -/
theorem wrsymWritesBarsOnly : Obligations.WrsymWritesBarsOnly := by
  intro c s hc hwf
  rw [← symModules_length_eq hc]
  exact ⟨_, exec_wrsym hc s, writeAll_cursor _ _ s, writeAll_err _ _ s, fun _ => writeAll_module _ _ hwf,
    writeAll_code _ _ s, writeAll_chk _ _ s, writeAll_nsym _ _ s⟩

/-- Settles O59: the response of each command by `responseOf`; an illegal word is refused before it runs. -/
theorem everyCommandResponds : Obligations.EveryCommandResponds := by
  refine ⟨⟨rfl, rfl, rfl⟩, fun i s t he => ⟨responseOf s t i, exec_response he, ?_⟩,
    fun s w e ms hagenda hdec => ?_⟩
  · cases i with
    | rdmod idx =>
      by_cases hin : byteOff idx.toNat < s.cap
      · cases hm : readModule Config.bitOrder s.buf idx.toNat <;> simp [responseOf, hin, hm]
      · simp [responseOf, hin]
    | _ => simp [responseOf]
  · exact ⟨_, (step_of_agenda_cons hagenda).trans (runWord_of_decode_error hdec _), rfl⟩

/-- Settles O60: each is an RDREG, and the ERR bit is the low bit of STATUS. -/
theorem pseudoReadsYieldRegisters : Obligations.PseudoReadsYieldRegisters :=
  fun s => ⟨⟨_, rfl, rfl⟩, ⟨_, rfl, rfl⟩, _, rfl, statusWord_and_one s⟩

end Sys2Proof
end

section
/-! SUPPORT. The Symbol Table as a code: its width strings are positive and pairwise distinct (R114), the module
sequence of a width string determines it (R113), and so the inverse lookup finds the symbol and parses a stream of
symbols back (R116). -/

namespace Sys2Proof.Machine

/-! ### The entries of the table -/

theorem symWidths_eq_getElem {c : Nat} (h : c < symTable.length) : symWidths c = symTable[c] :=
  List.getD_eq_getElem _ _ h

theorem symWidths_mem {c : Nat} (h : c < 107) : symWidths c ∈ symTable := by
  rw [symWidths_eq_getElem (symTable_length ▸ h)]
  exact List.getElem_mem _

theorem symTable_element_range : ∀ ws ∈ symTable, ∀ e ∈ ws, 1 ≤ e ∧ e ≤ 4 := by decide +kernel

theorem symTable_nodup : symTable.Nodup := by decide +kernel

/-- The sums over a width string of a symbol of 0 to 105 (R114 a, e). -/
theorem symWidths_sums : ∀ c < 106, (symWidths c).length = 6 ∧ (symWidths c).sum = 11 ∧
    ((symWidths c).getD 0 0 + (symWidths c).getD 2 0 + (symWidths c).getD 4 0) % 2 = 0 := by decide +kernel

theorem symWidths_pos {c : Nat} (h : c < 107) : ∀ e ∈ symWidths c, 0 < e :=
  fun e he => (symTable_element_range _ (symWidths_mem h) e he).1

theorem symWidths_injective {c d : Nat} (hc : c < 107) (hd : d < 107) (h : symWidths c = symWidths d) : c = d := by
  rw [← symTable_length] at hc hd
  rw [symWidths_eq_getElem hc, symWidths_eq_getElem hd] at h
  exact symTable_nodup.getElem_inj_iff.1 h

/-! ### From widths to modules -/

/-- The next run of an expansion has the other colour. -/
theorem head?_expandFrom_ne (colour : Module) {ws : List Nat} (h : ∀ e ∈ ws, 0 < e) :
    (expandFrom (!colour) ws).head? ≠ some colour := by
  cases ws with
  | nil => simp [expandFrom]
  | cons e es =>
    obtain ⟨n, rfl⟩ := Nat.exists_eq_add_one.2 (h e List.mem_cons_self)
    simp [expandFrom, List.replicate_succ]

/-- The leading run of one colour in an expansion is its first width. -/
theorem takeWhile_expandFrom (colour : Module) (e : Nat) {es : List Nat} (h : ∀ x ∈ es, 0 < x) :
    (expandFrom colour (e :: es)).takeWhile (· == colour) = List.replicate e colour := by
  have hstop : (expandFrom (!colour) es).takeWhile (· == colour) = [] := by
    have := head?_expandFrom_ne colour h
    cases hr : expandFrom (!colour) es with
    | nil => rfl
    | cons m ms => simpa [hr] using this
  rw [expandFrom, List.takeWhile_append_of_pos (by simp), hstop, List.append_nil]

/-- A width string without a zero is determined by its modules (R113). -/
theorem expandFrom_injective (colour : Module) {ws vs : List Nat} (hw : ∀ e ∈ ws, 0 < e) (hv : ∀ e ∈ vs, 0 < e)
    (h : expandFrom colour ws = expandFrom colour vs) : ws = vs := by
  induction ws generalizing colour vs with
  | nil =>
    cases vs with
    | nil => rfl
    | cons v vs =>
      simp [expandFrom, (hv v List.mem_cons_self).ne'] at h
  | cons w ws ih =>
    cases vs with
    | nil =>
      simp [expandFrom, (hw w List.mem_cons_self).ne'] at h
    | cons v vs =>
      obtain ⟨-, hws⟩ := List.forall_mem_cons.1 hw
      obtain ⟨-, hvs⟩ := List.forall_mem_cons.1 hv
      have hrun := congrArg (List.takeWhile (· == colour)) h
      rw [takeWhile_expandFrom colour w hws, takeWhile_expandFrom colour v hvs] at hrun
      obtain rfl : w = v := by simpa using congrArg List.length hrun
      rw [ih (!colour) hws hvs (List.append_cancel_left h)]

theorem symModules_injective {c d : Nat} (hc : c < 107) (hd : d < 107) (h : symModules c = symModules d) : c = d :=
  symWidths_injective hc hd (expandFrom_injective dark (symWidths_pos hc) (symWidths_pos hd) h)

/-- The colours of an expansion alternate along its widths (R113). -/
theorem expandFrom_eq_flatMap (colour : Module) (ws : List Nat) : expandFrom colour ws =
    (List.range ws.length).flatMap (fun j => List.replicate (ws.getD j 0) (colour ^^ decide (j % 2 = 1))) := by
  induction ws generalizing colour with
  | nil => rfl
  | cons w ws ih =>
    have hflip : ∀ j, (!colour ^^ decide (j % 2 = 1)) = (colour ^^ decide ((j + 1) % 2 = 1)) := by
      intro j
      rcases Nat.mod_two_eq_zero_or_one j with hj | hj <;> simp [hj, Nat.add_mod]
    rw [expandFrom, ih, List.length_cons, List.range_succ_eq_map, List.flatMap_cons, List.flatMap_map]
    simp [hflip]

theorem expand_eq_flatMap (ws : List Nat) : expand ws =
    (List.range ws.length).flatMap (fun j => List.replicate (ws.getD j 0) (decide (j % 2 = 1))) := by
  simpa [expand] using expandFrom_eq_flatMap dark ws

/-! ### From modules to the pattern word -/

/-- The number that modules write, as a sum of their weights (R113). -/
def moduleSum (ms : List Module) : Nat :=
  ((List.range ms.length).map (fun k => (ms.getD k false).toNat * 2 ^ (ms.length - 1 - k))).sum

theorem moduleSum_cons (m : Module) (ms : List Module) :
    moduleSum (m :: ms) = m.toNat * 2 ^ ms.length + moduleSum ms := by
  rw [moduleSum, List.length_cons, List.range_succ_eq_map, List.map_cons, List.map_map, List.sum_cons]
  simp [moduleSum, Function.comp_def, Nat.sub_sub, Nat.add_comm]

theorem foldl_modules_eq (ms : List Module) (n : Nat) :
    ms.foldl (fun n m => 2 * n + m.toNat) n = n * 2 ^ ms.length + moduleSum ms := by
  induction ms generalizing n with
  | nil => simp [moduleSum]
  | cons m ms ih => rw [List.foldl_cons, ih, moduleSum_cons, List.length_cons]; ring

theorem modulesToNat_eq_moduleSum (ms : List Module) : modulesToNat ms = moduleSum ms := by
  simpa [modulesToNat] using foldl_modules_eq ms 0

/-- Module `k` of a symbol is a bit of its pattern word, the first module the most significant (R113). -/
theorem symModules_getElem? {c k : Nat} (h : k < (symRom c).width) :
    (symModules c)[k]? = some ((symRom c).pat.testBit ((symRom c).width - 1 - k)) := by
  rw [← symRom_modules]
  exact patModules_getElem? _ h

/-! ### The inverse lookup -/

theorem symbolOf_symModules {c : Nat} (h : c ≤ 105) : symbolOf (symModules c) = some c := by
  rw [symbolOf, List.find?_range_eq_some]
  refine ⟨beq_self_eq_true _, List.mem_range.2 (by omega), fun j hj => ?_⟩
  have : symModules j ≠ symModules c := fun he => absurd (symModules_injective (by omega) (by omega) he) (by omega)
  simpa using this

/-- The parser takes one symbol of 0 to 105 off a stream that goes on for at least a STOP after it (R116). -/
theorem parseStream_symModules_append {c : Nat} (h : c ≤ 105) (fuel : Nat) {ms : List Module} (hms : 13 ≤ ms.length) :
    parseStream (fuel + 1) (symModules c ++ ms) = (parseStream fuel ms).map (c :: ·) := by
  have hlen := symModules_length h
  have hstop : symModules c ++ ms ≠ symModules stopSym := by
    intro he
    have := congrArg List.length he
    rw [List.length_append, hlen, symModules_stop] at this
    omega
  rw [parseStream, if_neg hstop, List.take_left' hlen, List.drop_left' hlen, symbolOf_symModules h]

theorem parseStream_symbolModules {syms : List Nat} (h : ∀ c ∈ syms, c ≤ 105) :
    parseStream (syms.length + 1) (symbolModules (syms ++ [stopSym])) = some (syms ++ [stopSym]) := by
  induction syms with
  | nil => simp [symbolModules, parseStream]
  | cons c cs ih =>
    obtain ⟨hc, hcs⟩ := List.forall_mem_cons.1 h
    have hlen : 13 ≤ (symbolModules (cs ++ [stopSym])).length := by
      simp [symbolModules, symModules_stop]
    have hcons : symbolModules (c :: cs ++ [stopSym]) = symModules c ++ symbolModules (cs ++ [stopSym]) := rfl
    rw [hcons, List.length_cons, parseStream_symModules_append hc _ hlen, ih hcs]
    rfl

end Sys2Proof.Machine

namespace Sys2Proof

open Machine

/-- Settles O56: the eleven modules at the head of the stream are those of one symbol only, and a stream that goes on
after them is longer than STOP. -/
theorem symbolStreamsParseUniquely : Obligations.SymbolStreamsParseUniquely := fun _ => parseStream_symbolModules

/-- Settles O54: lengths, sums and ranges by evaluating the table, which lists no width string twice; and a width
string is determined by its modules. -/
theorem symbolTableStructure : Obligations.SymbolTableStructure :=
  ⟨symTable_length,
    fun c hc => have ⟨hlength, hsum, _⟩ := symWidths_sums c hc; ⟨hlength, hsum⟩,
    by decide,
    fun _ hc => symTable_element_range _ (symWidths_mem hc),
    fun _ hc _ hd => symWidths_injective hc hd,
    fun _ hc _ hd => symModules_injective hc hd,
    fun c hc => have ⟨_, _, hbars⟩ := symWidths_sums c hc; hbars⟩

/-- Settles O55: for the pattern word, what `expand` and `modulesToNat` give for every list; for the outer bits, the
first and the last module. -/
theorem patternWordsFromWidths : Obligations.PatternWordsFromWidths := by
  intro c hc
  obtain ⟨hwidth, -, hfirst, hlast⟩ := symWidths_range c hc
  have hpos : 0 < (symRom c).width := Nat.lt_of_lt_of_le (by decide) (symModules_length_ge (Nat.le_of_lt_succ hc))
  refine ⟨expand_eq_flatMap _, rfl, hwidth, modulesToNat_eq_moduleSum _, fun k => symModules_getElem?, ?_, ?_⟩
  · rw [List.head?_eq_getElem?, symModules_getElem? hpos] at hfirst
    exact Option.some.inj hfirst
  · have hend := symModules_getElem? (Nat.sub_one_lt_of_lt hpos)
    rw [Nat.sub_self] at hend
    exact Option.some.inj (hend.symm.trans (List.getLast?_eq_getElem? ▸ hlast))

end Sys2Proof
end

section
/-! SUPPORT. A reader of the symbols of a text (R115): a change of code set is read as that change, and a data symbol,
in the code set it was written in, as the bytes it stands for. -/

namespace Sys2Proof.Machine

/-! ### One symbol -/

variable {cur t : CodeSet} {v : Nat} {vs : List Nat}

theorem readText_cons_of_enter (h : meaning cur v = .enter t) : readText cur (v :: vs) = readText t vs := by
  rw [readText, h]

theorem readText_cons_of_chars {bytes : List Byte} (h : meaning cur v = .chars bytes) :
    readText cur (v :: vs) = bytes ++ readText cur vs := by
  rw [readText, h]

theorem meaning_startSym (h : startSym t = some v) : meaning cur v = .enter t := by
  cases t with
  | none | stop => cases h
  | a | b | c => cases h; rfl

/-- START and switch symbols are read as the change they make (R89, R115). -/
theorem meaning_transitionSym (hne : t ≠ cur) (h : transitionSym cur t = some v) : meaning cur v = .enter t := by
  cases cur with
  | none => exact meaning_startSym h
  | stop => cases h
  | a | b | c =>
    cases t with
    | none | stop => cases h
    | a | b | c => cases h; simp_all [meaning]

/-- After the symbol of a change to A, B or C, if any, the reader is in that code set (R152, R154). -/
theorem readText_moveSyms_append (hcur : cur ≠ .stop) (ht : t = .a ∨ t = .b ∨ t = .c) :
    readText cur (moveSyms cur t ++ vs) = readText t vs := by
  by_cases he : t = cur
  · rw [moveSyms, if_pos he, he, List.nil_append]
  · have hlegal : illegalTransition cur t = false := by
      rcases ht with rfl | rfl | rfl <;> simp [illegalTransition, hcur]
    obtain ⟨c, hc⟩ := Option.ne_none_iff_exists'.1 (mt (transitionSym_none_iff cur t).1 (by simp [hlegal]))
    rw [moveSyms, if_neg he, hc]
    exact readText_cons_of_enter (meaning_transitionSym he hc)

/-- AUTO puts the control bytes in Code A and all others in Code B (R155). -/
theorem target_auto (b : Byte) :
    target Config.bReqLo b .auto = if b.toNat ≤ Config.ctlHi then .a else .b := by
  simp only [target, required]
  split_ifs <;> rfl

theorem meaning_a_of_control (hlo : 64 ≤ v) (hhi : v ≤ 95) : meaning .a v = .chars [BitVec.ofNat 8 (v - 64)] := by
  rw [meaning, if_neg (by omega), if_neg (by omega), if_neg (by omega), if_neg (by omega)]
  exact (if_neg (by omega)).trans (if_pos hhi)

theorem meaning_b_of_le (h : v ≤ 95) : meaning .b v = .chars [BitVec.ofNat 8 (v + 32)] := by
  rw [meaning, if_neg (by omega), if_neg (by omega), if_neg (by omega), if_neg (by omega)]
  exact if_pos h

theorem meaning_c_of_le (h : v ≤ 99) :
    meaning .c v = .chars [BitVec.ofNat 8 (0x30 + v / 10), BitVec.ofNat 8 (0x30 + v % 10)] := by
  rw [meaning, if_neg (by omega), if_neg (by omega), if_neg (by omega), if_neg (by omega)]
  exact if_pos h

theorem ofNat_eq_byte {n : Nat} {b : Byte} (h : n = b.toNat) : BitVec.ofNat 8 n = b := by
  rw [h, BitVec.ofNat_toNat, BitVec.setWidth_eq]

/-- A character is read back in the code set that AUTO writes it in (R88, R115). -/
theorem meaning_charSym {b : Byte} (h : unencodable b = false) :
    meaning (target Config.bReqLo b .auto) (charSym b) = .chars [b] := by
  have hle := charSym_le h
  rw [target_auto]
  by_cases hctl : b.toNat ≤ Config.ctlHi
  · have hsym : charSym b = b.toNat + 64 := if_pos hctl
    rw [if_pos hctl, meaning_a_of_control (by omega) hle, ofNat_eq_byte (b := b) (by omega)]
  · have hsym : charSym b = b.toNat - 32 := if_neg hctl
    have hlow : 0x20 ≤ b.toNat := Nat.lt_of_not_le hctl
    rw [if_neg hctl, meaning_b_of_le hle, ofNat_eq_byte (b := b) (by omega)]

/-- Two digits are read back in Code C (R87, R115). -/
theorem meaning_pairSym {b0 b1 : Byte} (h0 : isDigit (some b0) = true) (h1 : isDigit (some b1) = true) :
    meaning .c (pairSym b0 b1) = .chars [b0, b1] := by
  have hd0 := of_decide_eq_true h0
  have hd1 := of_decide_eq_true h1
  have htens : 0x30 + pairSym b0 b1 / 10 = b0.toNat := by unfold pairSym; omega
  have hones : 0x30 + pairSym b0 b1 % 10 = b1.toNat := by unfold pairSym; omega
  rw [meaning_c_of_le (pairSym_le h0 h1), ofNat_eq_byte htens, ofNat_eq_byte hones]

/-! ### The symbols of a text -/

theorem compact_digits {d0 d1 d2 d3 : Bool} {fix : Fix} {code : CodeSet} (h : compact d0 d1 d2 d3 fix code = true) :
    d0 = true ∧ d1 = true := by
  simp only [compact, Bool.and_eq_true] at h
  obtain ⟨⟨hdigits, -⟩, -⟩ := h
  exact hdigits

/-- Under AUTO the symbols of an encodable text, read from the code set they were written from, are that text (R115). -/
theorem readText_textSymbols {bytes : List Byte} (hcur : cur ≠ .stop) (h : encodable bytes) :
    readText cur (textSymbols .auto cur bytes) = bytes := by
  fun_induction textSymbols with
  | case1 => rfl
  | case2 cur b =>
    rw [readText_moveSyms_append hcur (target_ne _ _ _), readText_cons_of_chars (meaning_charSym (h b (by simp)))]
    rfl
  | case3 cur b0 b1 rest hcp ih =>
    obtain ⟨h0, h1⟩ := compact_digits hcp
    have hrest : encodable rest := fun b hb => h b (by simp [hb])
    rw [readText_moveSyms_append hcur (by simp), readText_cons_of_chars (meaning_pairSym h0 h1), ih (by simp) hrest]
    rfl
  | case4 cur b0 b1 rest hcp ih =>
    obtain ⟨h0, hrest⟩ := List.forall_mem_cons.1 h
    rw [readText_moveSyms_append hcur (target_ne _ _ _), readText_cons_of_chars (meaning_charSym h0),
      ih (target_running _ _ _) hrest]
    rfl

end Sys2Proof.Machine

namespace Sys2Proof

open Machine

/-- Settles O57: the empty text is the START-B symbol alone, any other the symbols of its policy. -/
theorem symbolsReadAsText : Obligations.SymbolsReadAsText := by
  intro bytes h
  by_cases hnil : bytes = []
  · subst hnil
    rfl
  · rw [bodySymbols, if_neg hnil]
    exact readText_textSymbols (by decide) h

end Sys2Proof
end

section
/-! SUPPORT. ENCODE against the module sequence of its text (R192): without an error every byte was encodable, and BUF
holds the quiet zones around the modules of the run's symbols (R163). -/

namespace Sys2Proof.Machine

variable {o : BitOrder} {fix : Fix} {qz len : Nat} {s t : State}

/-! ### The text of an error-free run is encodable -/

/-- ERR is never cleared inside a run (R218). -/
theorem Extends.err_eq_false (h : Extends o s t) (he : t.err = false) : s.err = false :=
  Bool.eq_false_iff.2 fun hs => absurd (h.err hs) (by simp [he])

theorem isDigit_encodable {b : Byte} (h : isDigit (some b) = true) : unencodable b = false := by
  have := of_decide_eq_true h
  exact decide_eq_false (by omega)

/-- The bytes that an error-free byte step consumes are encodable (R156, R158). -/
theorem encodable_of_byteStep (hpos : s.pos < len) (he : (byteStep o fix len s).err = false)
    (hrest : encodable (textFrom s.txt len (byteStep o fix len s).pos)) : encodable (textFrom s.txt len s.pos) := by
  rw [textFrom_cons _ hpos]
  rcases byteStep_cases o fix len s with ⟨_, hstep⟩ | ⟨hb, hcp, hstep⟩ | ⟨hb, _, hstep⟩
  · rw [hstep] at he
    cases he
  · obtain ⟨hpos1, _, hdigit, _⟩ := compactAt_digits hcp
    rw [hstep] at hrest
    rw [textFrom_cons _ hpos1]
    exact List.forall_mem_cons.2 ⟨hb, List.forall_mem_cons.2 ⟨isDigit_encodable hdigit, hrest⟩⟩
  · rw [hstep] at hrest
    exact List.forall_mem_cons.2 ⟨hb, hrest⟩

theorem encodable_of_appendLoop {fuel : Nat} (hfuel : len ≤ s.pos + fuel)
    (he : (appendLoop o fix len fuel s).err = false) : encodable (textFrom s.txt len s.pos) := by
  induction fuel generalizing s with
  | zero =>
    rw [textFrom_end _ (by simpa using hfuel)]
    exact List.forall_mem_nil _
  | succ fuel ih =>
    by_cases hpos : s.pos < len
    · rw [appendLoop, if_pos hpos] at he
      obtain ⟨hadvance, _⟩ := byteStep_pos o fix len hpos
      have hrest := ih (by omega) he
      rw [(Extends.byteStep o fix len s).txt] at hrest
      exact encodable_of_byteStep hpos ((Extends.appendLoop o fix len fuel _).err_eq_false he) hrest
    · rw [textFrom_end _ (by omega)]
      exact List.forall_mem_nil _

/-- An APPEND that leaves ERR clear had an encodable text (R156, R159). -/
theorem encodable_of_append (he : (append o fix len s).err = false) : encodable (s.text len) := by
  rw [text_eq]
  exact encodable_of_appendLoop (s := s.setPos 0) (by simp) he

theorem text_quiet_runReset : (quiet o qz s.runReset).text len = s.text len := by
  simp [State.text, quiet_eq]

theorem encodable_of_encodeRun (he : (encodeRun o fix qz len s).err = false) : encodable (s.text len) := by
  have happend := ((Extends.finalize o _).trans (Extends.quiet o qz _)).err_eq_false he
  exact text_quiet_runReset ▸ encodable_of_append happend

/-! ### ENCODE as a run of modules -/

/-- After the leading quiet zone of an ENCODE on encodable text come the symbols of its run (R192). -/
theorem encodeRun_emits (henc : encodable (s.text len)) : Emits o (quiet o qz s.runReset)
    (finalize o (append o fix len (quiet o qz s.runReset))) (runSymbols fix (s.text len)) := by
  have hquiet : OverflowOnly (quiet o qz s.runReset) := OverflowOnly.writeAll _ fun h => by cases h
  have htext : (quiet o qz s.runReset).text len = s.text len := text_quiet_runReset
  have h := run_emits o fix len (htext ▸ henc) hquiet (writeAll_code o _ _) (writeAll_chk o _ _)
    (writeAll_nsym o _ _)
  rwa [htext] at h

/-- ENCODE on encodable text leaves the sink as if it had been offered the modules of the barcode (R192). -/
theorem encodeRun_sinkEq (henc : encodable (s.text len)) : SinkEq (encodeRun o fix qz len s)
    (writeAll o (runModules fix qz (s.text len)) s.runReset) := by
  rw [runModules, writeAll_append, writeAll_append]
  exact (encodeRun_emits henc).sink.writeAll o _

/-- An ENCODE without error counts the symbols of its run (R163). -/
theorem encodeRun_nsym (he : (encodeRun o fix qz len s).err = false) :
    (encodeRun o fix qz len s).nsym = (runSymbols fix (s.text len)).length := by
  have hemits := encodeRun_emits (o := o) (fix := fix) (qz := qz) (encodable_of_encodeRun he)
  have hcount := hemits.nsym ((Extends.quiet o qz _).err_eq_false he)
  rw [quiet_nsym, State.runReset_nsym, Nat.zero_add] at hcount
  exact (quiet_nsym o qz _).trans hcount

/-! ### Reading the modules back -/

/-- Without an overflow CURSOR passes every module of the run (R130). -/
theorem writeAll_cursor_of_err_eq_false {ms : List Module} (he : (writeAll o ms s).err = false) :
    (writeAll o ms s).cursor = s.cursor + ms.length := by
  rw [writeAll_err, Bool.eq_false_iff, ne_eq, errAfter_iff] at he
  rw [writeAll_cursor, State.cursorAfter]
  omega

/-- Without an overflow each part of a run of modules reads back from where it was stored (R131, R137). -/
theorem map_readModule_writeAll {pre ms post : List Module} (hw : s.buf.wf = true)
    (he : (writeAll o (pre ++ ms ++ post) s).err = false) :
    (List.range' (s.cursor + pre.length) ms.length).map (readModule o (writeAll o (pre ++ ms ++ post) s).buf) = ms := by
  have hcursor := writeAll_cursor_of_err_eq_false he
  rw [List.length_append, List.length_append] at hcursor
  refine List.ext_getElem (by simp) fun k _ hk => ?_
  have hread := writeAll_module o (pre ++ ms ++ post) hw (k := pre.length + k) (by omega)
  rw [List.append_assoc, List.getElem?_append_right (by omega), Nat.add_sub_cancel_left,
    List.getElem?_append_left hk, List.getElem?_eq_getElem hk, ← List.append_assoc] at hread
  simpa [Nat.add_assoc] using (Option.some.inj hread).symm

/-- Between its quiet zones the barcode of an ENCODE without error is the symbols of its run (R163). -/
theorem encodeRun_stream (hw : s.buf.wf = true) (he : (encodeRun o fix qz len s).err = false) :
    (List.range' qz ((encodeRun o fix qz len s).cursor - 2 * qz)).map (readModule o (encodeRun o fix qz len s).buf) =
      symbolModules (runSymbols fix (s.text len)) := by
  have hsink := encodeRun_sinkEq (o := o) (fix := fix) (qz := qz) (encodable_of_encodeRun he)
  rw [runModules] at hsink
  have hnoErr := hsink.err ▸ he
  have hlen : (encodeRun o fix qz len s).cursor - 2 * qz = (symbolModules (runSymbols fix (s.text len))).length := by
    rw [hsink.cursor, writeAll_cursor_of_err_eq_false hnoErr, State.runReset_cursor, List.length_append,
      List.length_append, List.length_replicate]
    omega
  have hread := map_readModule_writeAll (s := s.runReset) hw hnoErr
  rw [State.runReset_cursor, Nat.zero_add, List.length_replicate] at hread
  rw [hlen, hsink.buf]
  exact hread

/-- The symbols of a run on encodable text parse back from their modules (R116). -/
theorem parseStream_runSymbols {bytes : List Byte} (h : encodable bytes) :
    parseStream (runSymbols fix bytes).length (symbolModules (runSymbols fix bytes)) = some (runSymbols fix bytes) := by
  have hcheck : checkSymbol fix bytes < Config.modulus := Nat.mod_lt _ (by decide)
  have hrange : ∀ c ∈ bodySymbols fix bytes ++ [checkSymbol fix bytes], c ≤ 105 := by
    refine List.forall_mem_append.2 ⟨bodySymbols_range h, List.forall_mem_singleton.2 ?_⟩
    exact Nat.le_of_lt (Nat.lt_trans hcheck (by decide))
  have hrun : runSymbols fix bytes = bodySymbols fix bytes ++ [checkSymbol fix bytes] ++ [stopSym] := by
    simp [runSymbols]
  rw [hrun, List.length_append]
  exact parseStream_symbolModules hrange

end Sys2Proof.Machine

namespace Sys2Proof

open Machine

/-- Settles O45: without an error the text was encodable, BUF holds the modules of its symbols between the quiet zones,
and NSYM counts them; they parse back as any stream that ends with STOP. -/
theorem encodedStreamParsesBack : Obligations.EncodedStreamParsesBack := by
  intro fix qz len s t hw hexec he
  obtain rfl := Host.Outcome.next.inj hexec
  refine ⟨_, _, rfl, rfl, ?_⟩
  have hstream := encodeRun_stream hw he
  have hnsym := encodeRun_nsym he
  exact (congrArg₂ parseStream hnsym hstream).trans (parseStream_runSymbols (encodable_of_encodeRun he))

end Sys2Proof
end

section
/-! SUPPORT. The Bit Sink, statement by statement: one module, a run of modules, and what a full buffer means for every
command that offers a module (R130 to R138). -/

namespace Sys2Proof.Machine

variable {o : BitOrder} {s t : State}

/-! ### One module -/

/-- The byte offset of a module as the spec writes it (R51). -/
theorem shiftRight_three_eq_byteOff (i : Nat) : i >>> 3 = byteOff i := Nat.shiftRight_eq_div_pow i 3

/-- A module's byte lies inside a buffer of `cap` bytes when its index lies inside the `8 * cap` modules (R54). -/
theorem byteOff_lt_iff (i cap : Nat) : byteOff i < cap ↔ i < 8 * cap := by
  unfold byteOff
  omega

theorem writeModule_of_lt (h : s.cursor < 8 * s.cap) (m : Module) : writeModule o m s = s.storeModule o m :=
  if_pos ((hasRoom_iff s).2 h)

theorem writeModule_of_le (h : 8 * s.cap ≤ s.cursor) (m : Module) : writeModule o m s = s.flagErr :=
  if_neg (mt (hasRoom_iff s).1 (Nat.not_lt_of_le h))

theorem ofNat_toNat_module (m : Module) : BitVec.ofNat 32 m.toNat = if m = true then 1 else 0 := by
  cases m <;> rfl

/-! ### A run of modules -/

theorem Extends.bufKept (h : Extends Config.bitOrder s t) (hw : s.buf.wf = true) : BufKept s.cursor t.cursor s t :=
  ⟨h.kept hw, h.below⟩

theorem writeAll_encoderKept (o : BitOrder) (ms : List Module) (s : State) : EncoderKept s (writeAll o ms s) :=
  ⟨writeAll_code o ms s, writeAll_chk o ms s, writeAll_nsym o ms s⟩

theorem writeAll_hostKept (o : BitOrder) (ms : List Module) (s : State) : HostKept s (writeAll o ms s) :=
  ⟨writeAll_txt o ms s, writeAll_agenda o ms s, writeAll_cap o ms s⟩

/-- The module stored at `CURSOR + k` is module `k` of the run (R131). -/
theorem readModule_writeAll (ms : List Module) (hw : s.buf.wf = true) {k : Nat}
    (h : s.cursor + k < (writeAll o ms s).cursor) :
    ∃ hk : k < ms.length, readModule o (writeAll o ms s).buf (s.cursor + k) = ms[k] := by
  obtain ⟨hk, hm⟩ := List.getElem?_eq_some_iff.1 (writeAll_module o ms hw h)
  exact ⟨hk, hm.symm⟩

/-! ### A command that starts no run -/

theorem runStart_of_startsRun_eq_false {i : Instr} (h : startsRun i = false) (s : State) : runStart i s = s := by
  cases i with
  | init _ | encode _ _ _ => cases h
  | _ => rfl

theorem exec_apsym_of_le {sym : BitVec 7} (h : sym.toNat ≤ 106) (s : State) :
    exec (.apsym sym) s = .next ((appendSymbol Config.bitOrder sym.toNat s).respond .ok 0) :=
  if_pos (decide_eq_true (Nat.lt_succ_of_le h))

/-- A command writes BUF only between the cursor its run starts from and the cursor it leaves (R138). -/
theorem exec_bufKept {i : Instr} (hw : s.buf.wf = true) (he : exec i s = .next t) :
    BufKept (runStart i s).cursor t.cursor s t := by
  obtain ⟨code, v, u, rfl, hext, _⟩ := exec_next_extends he
  have hkept := hext.bufKept (by rwa [runStart_buf])
  rwa [BufKept, runStart_buf] at hkept

/-- CURSOR has not fallen below `c₀`, and as long as it stands there the first of two buffers is `b₀`. The second does
not matter: the relation serves a run beside itself. -/
def UnmovedHolds (c₀ : Nat) (b₀ : Memory) (c : Nat) (x _ : Memory) : Prop := c₀ ≤ c ∧ (c = c₀ → x = b₀)

theorem keptByStore_unmovedHolds (o : BitOrder) (c₀ : Nat) (b₀ : Memory) : KeptByStore o o (UnmovedHolds c₀ b₀) :=
  fun _ _ _ _ ⟨hle, _⟩ => ⟨Nat.le_succ_of_le hle, fun hc => absurd hc (by omega)⟩

/-- A command of a run that leaves CURSOR where it was has stored nothing: BUF is the same list of cells, canonical or
not (R130). The run is its own twin, so that what a stored module keeps of the first buffer is kept throughout. -/
theorem exec_buf_of_cursor_eq {i : Instr} (hrun : startsRun i = false) (he : exec i s = .next t)
    (hc : t.cursor = s.cursor) : t.buf = s.buf := by
  have hQ := keptByStore_unmovedHolds Config.bitOrder s.cursor s.buf
  have h : Twin (UnmovedHolds s.cursor s.buf) s.txt s s := ⟨s.buf, rfl, Nat.le_refl _, fun _ => rfl⟩
  suffices hu : ∃ t', Twin (UnmovedHolds s.cursor s.buf) s.txt t t' by
    obtain ⟨_, _, _, _, hbuf⟩ := hu
    exact hbuf hc
  cases i with
  | init _ | encode _ _ _ => cases hrun
  | wrmod pat width =>
    obtain rfl := eq_ite_of_ite_next he
    split_ifs
    · exact ⟨_, (h.writeAll hQ _).respond _ _⟩
    · exact ⟨_, h.respond _ _⟩
  | apsym sym =>
    obtain rfl := eq_ite_of_ite_next he
    split_ifs
    · exact ⟨_, (h.appendSymbol hQ _).respond _ _⟩
    · exact ⟨_, h.respond _ _⟩
  | rdmod idx =>
    obtain rfl := eq_ite_of_ite_next he
    split_ifs <;> exact ⟨_, h.respond _ _⟩
  | quiet n => obtain rfl := Host.Outcome.next.inj he; exact ⟨_, (h.writeAll hQ _).respond _ _⟩
  | chcode tgt => obtain rfl := Host.Outcome.next.inj he; exact ⟨_, (h.changeCode hQ tgt).respond _ _⟩
  | append fix len =>
    obtain rfl := Host.Outcome.next.inj he
    exact ⟨_, (h.append hQ fix fun _ _ => rfl).respond _ _⟩
  | final => obtain rfl := Host.Outcome.next.inj he; exact ⟨_, (h.finalize hQ).respond _ _⟩
  | rdreg reg => obtain rfl := Host.Outcome.next.inj he; exact ⟨_, h.respond _ _⟩

/-! ### A full buffer -/

/-- Once the buffer is full it stays full for the rest of the run (R132). -/
theorem Extends.full (h : Extends o s t) (hf : 8 * s.cap ≤ s.cursor) : 8 * t.cap ≤ t.cursor :=
  h.cap ▸ Nat.le_trans hf h.cursor_le

theorem Extends.cursor_of_full (h : Extends o s t) (hf : 8 * s.cap ≤ s.cursor) : t.cursor = s.cursor := by
  have := h.cursor_le
  have := h.cursor_bound
  omega

theorem writeAll_err_of_full (hf : 8 * s.cap ≤ s.cursor) {ms : List Module} (hms : 0 < ms.length) :
    (writeAll o ms s).err = true := by
  rw [writeAll_err, errAfter_iff]
  exact .inr ⟨hms, by omega⟩

/-- A symbol is refused, or has modules to drop (R150). -/
theorem appendSymbol_err_of_full (hf : 8 * s.cap ≤ s.cursor) {c : Nat} (hc : c ≤ 106) :
    (appendSymbol o c s).err = true := by
  rcases appendSymbol_cases o c s with ⟨_, he⟩ | ⟨_, _, he⟩ <;> rw [he]
  · rfl
  · exact writeAll_err_of_full hf (Nat.lt_of_lt_of_le (by decide) (symModules_length_ge hc))

theorem changeCode_err_of_full (hf : 8 * s.cap ≤ s.cursor) {cs : CodeSet} (hne : cs ≠ s.code) :
    (changeCode o cs s).err = true := by
  rcases changeCode_cases o cs s with ⟨heq, _⟩ | ⟨_, _, he⟩ | ⟨_, _, c, hc, he⟩
  · exact absurd heq hne
  · rw [he]; rfl
  · rw [he]
    exact appendSymbol_err_of_full hf (Nat.le_succ_of_le (transitionSym_range hc).2)

theorem byteStep_err_of_full (hf : 8 * s.cap ≤ s.cursor) (fix : Fix) (len : Nat) :
    (byteStep o fix len s).err = true := by
  rcases byteStep_cases o fix len s with ⟨_, he⟩ | ⟨_, hcp, he⟩ | ⟨hu, _, he⟩ <;> rw [he]
  · rfl
  · obtain ⟨_, h0, h1, _⟩ := compactAt_digits hcp
    exact appendSymbol_err_of_full ((Extends.changeCode o _ s).full hf)
      (Nat.le_trans (pairSym_le h0 h1) (by decide))
  · exact appendSymbol_err_of_full ((Extends.changeCode o _ s).full hf) (Nat.le_trans (charSym_le hu) (by decide))

/-- The first byte of the text sets ERR, and no later one clears it (R159). -/
theorem append_err_of_full (hf : 8 * s.cap ≤ s.cursor) (fix : Fix) {len : Nat} (hlen : 0 < len) :
    (append o fix len s).err = true := by
  obtain ⟨n, rfl⟩ := Nat.exists_eq_succ_of_ne_zero (Nat.ne_of_gt hlen)
  have hpos : (s.setPos 0).pos < n + 1 := Nat.succ_pos n
  change (appendLoop o fix (n + 1) (n + 1) (s.setPos 0)).err = true
  rw [appendLoop, if_pos hpos]
  exact (Extends.appendLoop o fix (n + 1) n _).err (byteStep_err_of_full (s := s.setPos 0) hf fix (n + 1))

theorem finalize_err_of_full (hf : 8 * s.cap ≤ s.cursor) (hcode : s.code ≠ .stop) :
    (finalize o s).err = true := by
  rw [finalize_running o hcode]
  exact appendSymbol_err_of_full (((Extends.ensureStarted o s).trans (Extends.appendCheck o _)).full hf) (by decide)

/-- With CURSOR within the capacity, past the last byte means at the end of it (R132). -/
theorem State.Inv.full_iff (h : s.Inv) : s.cap ≤ byteOff s.cursor ↔ s.cursor = 8 * s.cap := by
  have := h.cursorBound
  rw [← Nat.not_lt, byteOff_lt_iff]
  omega

end Sys2Proof.Machine

namespace Sys2Proof

open Machine

/-- Settles O14: the two cases of `WriteModule`, and for the stored one the laws of `writeBit`. -/
theorem writeModuleStoresOneBit : Obligations.WriteModuleStoresOneBit := by
  intro o m s
  rw [shiftRight_three_eq_byteOff]
  refine ⟨fun hroom hw => ?_, fun hfull => ?_⟩
  · exact ⟨_, writeModule_of_lt ((byteOff_lt_iff _ _).1 hroom) m, Memory.write_wf _ _ hw,
      readModule_writeBit_same o hw _ m, fun _ hj => readModule_writeBit_of_ne o hw hj m,
      fun _ ha => Memory.read_write_other ha _ _⟩
  · have hle := mt (byteOff_lt_iff _ _).2 (Nat.not_lt_of_le hfull)
    exact writeModule_of_le (Nat.le_of_not_lt hle) m

/-- Settles O15: WRMOD offers the bits of its pattern as a run of modules. -/
theorem wrmodAppendsPattern : Obligations.WrmodAppendsPattern := by
  intro pat width s hwidth hw
  have hlen := patModules_length pat.toNat width.toNat
  refine ⟨_, exec_wrmod_of_le hwidth pat s, (writeAll_cursor _ _ s).trans (congrArg _ hlen),
    (writeAll_err _ _ s).trans (congrArg _ hlen), fun k hk => ?_,
    (Extends.writeAll _ _ s).bufKept hw, writeAll_encoderKept _ _ s, writeAll_hostKept _ _ s,
    writeAll_txtpos _ _ s, rfl⟩
  obtain ⟨hlt, hread⟩ := readModule_writeAll _ hw hk
  have hbit := patModules_getElem? pat.toNat (hlen ▸ hlt)
  exact hread.trans (List.getElem_of_getElem? hbit).2

/-- Settles O16: QUIET offers a run of light modules. -/
theorem quietAppendsLightModules : Obligations.QuietAppendsLightModules := by
  intro n s hw
  have hlen : (List.replicate n.toNat light).length = n.toNat := List.length_replicate
  refine ⟨_, rfl, (writeAll_cursor _ _ s).trans (congrArg _ hlen),
    (writeAll_err _ _ s).trans (congrArg _ hlen), fun j hlo hj => ?_,
    (Extends.writeAll _ _ s).bufKept hw, writeAll_encoderKept _ _ s, writeAll_hostKept _ _ s,
    writeAll_txtpos _ _ s, rfl⟩
  obtain ⟨k, rfl⟩ := Nat.exists_eq_add_of_le hlo
  obtain ⟨hlt, hread⟩ := readModule_writeAll _ hw hj
  exact hread.trans (List.getElem_replicate hlt)

/-- Settles O18: a full buffer leaves CURSOR no room to move, so nothing is stored; and each command that offers a
module comes to one that is dropped, or is refused before. -/
theorem overflowIsSticky : Obligations.OverflowIsSticky := by
  refine ⟨fun i s t hrun hf he => ?_, fun s hinv => ?_⟩
  · obtain ⟨code, v, u, ht, hext, _⟩ := exec_next_extends he
    rw [runStart_of_startsRun_eq_false hrun] at hext
    have hcursor : t.cursor = s.cursor := ht ▸ hext.cursor_of_full hf
    refine ⟨hcursor, exec_buf_of_cursor_eq hrun he hcursor, ht ▸ hext.cap, ?_, ?_, ?_, ?_, ?_, ?_⟩
    · rintro pat width rfl hpos hle
      obtain rfl := Host.Outcome.next.inj (exec_wrmod_of_le hle pat s ▸ he)
      exact writeAll_err_of_full hf ((patModules_length _ _).symm ▸ hpos)
    · rintro n rfl hpos
      obtain rfl := Host.Outcome.next.inj he
      exact writeAll_err_of_full hf (List.length_replicate.symm ▸ hpos)
    · rintro tgt rfl hne
      obtain rfl := Host.Outcome.next.inj he
      exact changeCode_err_of_full hf hne
    · rintro sym rfl hsym
      obtain rfl := Host.Outcome.next.inj (exec_apsym_of_le hsym s ▸ he)
      exact appendSymbol_err_of_full hf hsym
    · rintro fix len rfl hlen
      obtain rfl := Host.Outcome.next.inj he
      exact append_err_of_full hf fix hlen
    · rintro rfl hcode
      obtain rfl := Host.Outcome.next.inj he
      exact finalize_err_of_full hf hcode
  · rw [shiftRight_three_eq_byteOff]
    exact hinv.full_iff

/-- Settles O20: every command extends the state its run starts from; ENCODE from CURSOR 0, INIT and the two reads with
no write at all. -/
theorem bufferWrittenOnlyBetweenCursors : Obligations.BufferWrittenOnlyBetweenCursors := by
  intro i s t hw he
  have hkept := exec_bufKept hw he
  refine ⟨fun hrun => ?_, ?_, ?_⟩
  · obtain ⟨code, v, u, rfl, hext, _⟩ := exec_next_extends he
    rw [runStart_of_startsRun_eq_false hrun] at hkept hext
    exact ⟨hext.cursor_le, hkept⟩
  · rintro fix qz len rfl
    exact hkept
  · rintro (⟨cap, rfl⟩ | ⟨reg, rfl⟩ | ⟨idx, rfl⟩)
    · rw [← Host.Outcome.next.inj he]; rfl
    · rw [← Host.Outcome.next.inj he]; rfl
    · obtain ⟨code, v, he'⟩ := exec_rdmod_responds idx s
      rw [Host.Outcome.next.inj (he.symm.trans he')]
      rfl

/-- Settles O7: the guard of each command's meaning fails. -/
theorem operandsOutOfRangeRefused : Obligations.OperandsOutOfRangeRefused :=
  ⟨fun _ width _ h => if_neg (ne_true_of_eq_false ((widthLegal_eq_false_iff width).2 h)),
    fun sym _ h => if_neg (ne_true_of_eq_false ((symLegal_eq_false_iff sym).2 h))⟩

/-- Settles O17: the two sides of the guard on the module's byte. -/
theorem rdmodReturnsModule : Obligations.RdmodReturnsModule := by
  intro idx s
  rw [shiftRight_three_eq_byteOff]
  refine ⟨fun hin => ?_, fun hout => if_neg (Nat.not_lt_of_le hout)⟩
  have hexec : exec (.rdmod idx) s =
      .next (s.respond .ok (readModule Config.bitOrder s.buf idx.toNat).toNat) := if_pos hin
  rw [hexec, State.respond, ofNat_toNat_module]
  rfl

end Sys2Proof
end

section
/-! SUPPORT. The encoder, statement by statement: what an accepted symbol does (R150), the state machine of the code
sets (R152), and the tests that a byte of the text is put to (R155 to R158). -/

namespace Sys2Proof.Machine

variable {o : BitOrder} {s t : State} {syms : List Nat} {txt : Memory} {len : Nat}

/-! ### A run of symbols -/

theorem overflowOnly_of_err (h : s.err = false) : OverflowOnly s := fun he => by simp [h] at he

theorem Extends.hostKept (h : Extends o s t) : HostKept s t := ⟨h.txt, h.agenda, h.cap⟩

theorem Emits.cursor (h : Emits o s t syms) : t.cursor = s.cursorAfter (symbolModules syms).length :=
  h.sink.cursor.trans (writeAll_cursor o _ s)

theorem Emits.errAfter (h : Emits o s t syms) : t.err = s.errAfter (symbolModules syms).length :=
  h.sink.err.trans (writeAll_err o _ s)

theorem Emits.stored (h : Emits Config.bitOrder s t syms) (hw : s.buf.wf = true) :
    Stored t s.cursor t.cursor (symbolModules syms) := by
  intro k hk
  rw [h.sink.buf]
  exact writeAll_module _ _ hw (h.sink.cursor ▸ hk)

/-! ### One symbol -/

/-- The registers after an accepted symbol: CHK and NSYM follow whether or not its modules fit (R150). -/
theorem appendSymbol_registers (o : BitOrder) (c : Nat) (herr : s.err = false) (hcode : s.code ≠ .stop) :
    (appendSymbol o c s).cursor = s.cursorAfter (symModules c).length ∧
    (appendSymbol o c s).err = s.errAfter (symModules c).length ∧
    (appendSymbol o c s).chk.val = (s.chk.val + max s.nsym 1 * c) % 103 ∧
    (appendSymbol o c s).nsym = s.nsym + 1 := by
  rw [appendSymbol_accepted o c herr hcode]
  exact ⟨writeAll_cursor o _ s, writeAll_err o _ s, by simp, by simp⟩

/-- The modules of an accepted symbol are stored as far as they fit (R150). -/
theorem appendSymbol_stored (c : Nat) (herr : s.err = false) (hcode : s.code ≠ .stop) (hw : s.buf.wf = true) :
    Stored (appendSymbol Config.bitOrder c s) s.cursor (appendSymbol Config.bitOrder c s).cursor (symModules c) := by
  rw [appendSymbol_accepted _ c herr hcode]
  exact fun _ => writeAll_module _ _ hw

/-! ### Changes of code set -/

theorem exec_chcode_of_eq {cs : CodeSet} (h : changeCode Config.bitOrder cs s = t) :
    exec (.chcode cs) s = .next (t.respond .ok 0) := by
  rw [exec, execChcode, h]

theorem changeCode_of_illegal {cs : CodeSet} (hne : cs ≠ s.code) (h : illegalTransition s.code cs = true) :
    changeCode o cs s = s.flagErr := by
  rcases changeCode_cases o cs s with ⟨heq, _⟩ | ⟨_, _, he⟩ | ⟨_, hl, _⟩
  · exact absurd heq hne
  · exact he
  · simp [h] at hl

theorem changeCode_of_transitionSym {cs : CodeSet} {c : Nat} (hne : cs ≠ s.code)
    (h : transitionSym s.code cs = some c) : changeCode o cs s = (appendSymbol o c s).setCode cs := by
  rw [changeCode, if_neg hne, h]

theorem ne_stop_of_transitionSym {cur cs : CodeSet} {c : Nat} (h : transitionSym cur cs = some c) : cur ≠ .stop := by
  rintro rfl
  cases h

/-- START from NONE, SWITCH from a code set (R152). -/
theorem transitionSym_eq_ite {cur : CodeSet} (h : cur ≠ .stop) (cs : CodeSet) :
    transitionSym cur cs = if decide (cur = .none) = true then startSym cs else switchSym cs := by
  cases cur with
  | stop => exact absurd rfl h
  | _ => rfl

/-! ### The tests on a byte -/

theorem isDigit_txtByte_iff (a : Nat) :
    isDigit (txtByte txt len a) = true ↔ a < len ∧ isDigit (some (txt.read a)) = true := by
  by_cases h : a < len <;> simp [txtByte, h, isDigit]

/-- The compaction test as R157 restates it: four digits from Code A or B, two from any other. -/
theorem compact_iff (d0 d1 d2 d3 : Bool) (fix : Fix) (code : CodeSet) :
    compact d0 d1 d2 d3 fix code = true ↔ d0 = true ∧ d1 = true ∧ fix = .auto ∧
      (d2 = true ∧ d3 = true ∨ code = .none ∨ code = .c ∨ code = .stop) := by
  cases code <;> simp [compact, and_assoc]

end Sys2Proof.Machine

namespace Sys2Proof

open Machine

/-- Settles O24: with ERR clear and CODE not STOP the symbol is accepted. -/
theorem apsymEmitsSymbol : Obligations.ApsymEmitsSymbol := by
  intro sym s hsym herr hcode hw
  rw [← symModules_length_eq hsym]
  obtain ⟨hcursor, herr', hchk, hnsym⟩ := appendSymbol_registers Config.bitOrder sym.toNat herr hcode
  have hext := Extends.appendSymbol Config.bitOrder hsym s
  exact ⟨_, exec_apsym_of_le hsym s, hcursor, herr', appendSymbol_stored _ herr hcode hw, hchk, hnsym,
    appendSymbol_code _ _ s, hext.bufKept hw, hext.hostKept, appendSymbol_txtpos _ _ s, rfl⟩

/-- Settles O26 by the three cases of `ChangeCode`; the literals of the last are the START and switch symbols. -/
theorem chcodeFollowsStateMachine : Obligations.ChcodeFollowsStateMachine := by
  intro t s
  refine ⟨?_, fun hne hill => ?_, fun from0 n hmem hfrom hne hstop => ?_⟩
  · rintro rfl
    exact exec_chcode_of_eq (if_pos rfl)
  · have hill' : illegalTransition s.code t = true := by simpa [illegalTransition, or_assoc] using hill
    exact exec_chcode_of_eq (changeCode_of_illegal hne hill')
  · have hliteral : (if from0 = true then startSym t else switchSym t) = some n.toNat ∧ n.toNat ≤ 106 := by
      simp only [List.mem_cons, Prod.mk.injEq, List.not_mem_nil, or_false] at hmem
      rcases hmem with ⟨rfl, rfl, rfl⟩ | ⟨rfl, rfl, rfl⟩ | ⟨rfl, rfl, rfl⟩ | ⟨rfl, rfl, rfl⟩ | ⟨rfl, rfl, rfl⟩ |
        ⟨rfl, rfl, rfl⟩ <;> decide
    obtain ⟨hsym, hle⟩ := hliteral
    have htrans : transitionSym s.code t = some n.toNat := by
      rw [transitionSym_eq_ite hstop, ← hfrom]
      exact hsym
    exact ⟨_, exec_apsym_of_le hle s, exec_chcode_of_eq (changeCode_of_transitionSym hne htrans)⟩

/-- Settles O27: a START or switch symbol is accepted, and has 11 modules. -/
theorem chcodeEmitsTransitionSymbol : Obligations.ChcodeEmitsTransitionSymbol := by
  intro t c s hne hsym herr hw
  have hc := (transitionSym_range hsym).2
  have hcode := ne_stop_of_transitionSym hsym
  obtain ⟨hcursor, herr', hchk, hnsym⟩ := appendSymbol_registers Config.bitOrder c herr hcode
  rw [symModules_length hc] at hcursor herr'
  have hext := Extends.appendSymbol Config.bitOrder (Nat.le_succ_of_le hc) s
  exact ⟨_, exec_chcode_of_eq (changeCode_of_transitionSym hne hsym), rfl, hcursor, herr',
    appendSymbol_stored _ herr hcode hw, hnsym, hchk, hext.bufKept hw, hext.hostKept, appendSymbol_txtpos _ _ s, rfl⟩

/-- Settles O25: a refused symbol flags ERR. -/
theorem apsymRefusedSetsOnlyErr : Obligations.ApsymRefusedSetsOnlyErr := by
  intro sym s hsym h
  rw [exec_apsym_of_le hsym, appendSymbol_inert _ _ h]
  rfl

/-- Settles O28: a fixed code set is its own target; under AUTO a byte that is not required to be in Code B goes there
for want of a requirement. -/
theorem targetOfByte : Obligations.TargetOfByte := by
  intro b lo _ _ _
  refine ⟨rfl, rfl, rfl, ?_⟩
  simp only [target, required]
  split_ifs <;> rfl

/-- Settles O29: a digit test on the window is a bound and a digit. -/
theorem compactionTest : Obligations.CompactionTest := by
  intro txt len p fix code hp
  rw [compactAt, compact_iff]
  simp only [isDigit_txtByte_iff, hp, true_and]

/-- Settles O30 by the three cases of `ByteStep`. -/
theorem byteStepOrder : Obligations.ByteStepOrder := by
  intro o fix len s hpos
  rcases byteStep_cases o fix len s with ⟨hu, he⟩ | ⟨hu, hcp, he⟩ | ⟨hu, hcp, he⟩
  · have hge : 0x80 ≤ (s.txt.read s.pos).toNat := of_decide_eq_true hu
    exact ⟨fun _ => he, fun hlt => absurd hlt (Nat.not_lt_of_le hge), fun hlt => absurd hlt (Nat.not_lt_of_le hge)⟩
  · have hlt := of_decide_eq_false hu
    obtain ⟨hnext, _, hdigit, _⟩ := compactAt_digits hcp
    exact ⟨fun hge => absurd hge hlt, fun _ _ => ⟨hnext, hdigit, he⟩, fun _ hn => by simp [hcp] at hn⟩
  · have hlt := of_decide_eq_false hu
    exact ⟨fun hge => absurd hge hlt, fun _ hy => by simp [hcp] at hy, fun _ _ => he⟩

/-- Settles O31: the loop over an empty text takes no step. -/
theorem appendOfNothing : Obligations.AppendOfNothing := fun _ _ => rfl

end Sys2Proof
end

section
/-! SUPPORT. The encoder once it is inert: what its procedures still change with ERR set, and in STOP (R164). -/

namespace Sys2Proof.Machine

variable {o : BitOrder} {fix : Fix} {len k : Nat} {s t u : State}

/-- `t` differs from `s`, when ERR was set in `s`, at most in CODE, TXTPOS and the response; and, when `s` was in STOP,
at most in ERR, TXTPOS and the response. -/
structure Inert (s t : State) : Prop where
  err : s.err = true → t = { s with code := t.code, txtpos := t.txtpos, response := t.response }
  stop : s.code = .stop → t = { s with err := t.err, txtpos := t.txtpos, response := t.response }

theorem Inert.refl (s : State) : Inert s s := ⟨fun _ => rfl, fun _ => rfl⟩

theorem Inert.trans (h1 : Inert s t) (h2 : Inert t u) : Inert s u where
  err h := by
    have ht := h1.err h
    have hu := h2.err (ht ▸ h)
    rw [hu, ht]
  stop h := by
    have ht := h1.stop h
    have hu := h2.stop (ht ▸ h)
    rw [hu, ht]

theorem Inert.flagErr (s : State) : Inert s s.flagErr := ⟨fun h => by rw [State.flagErr, ← h], fun _ => rfl⟩

theorem Inert.setPos (h : Inert s t) (p : Nat) : Inert s (t.setPos p) :=
  h.trans ⟨fun _ => rfl, fun _ => rfl⟩

theorem Inert.clearPos (h : Inert s t) : Inert s t.clearPos := h.trans ⟨fun _ => rfl, fun _ => rfl⟩

theorem Inert.respond (h : Inert s t) (code : RespCode) (v : Nat) : Inert s (t.respond code v) :=
  h.trans ⟨fun _ => rfl, fun _ => rfl⟩

theorem Inert.appendSymbol (o : BitOrder) (c : Nat) (s : State) : Inert s (appendSymbol o c s) := by
  rcases appendSymbol_cases o c s with ⟨_, he⟩ | ⟨herr, hcode, _⟩
  · exact he ▸ Inert.flagErr s
  · exact ⟨fun h => by simp [h] at herr, fun h => absurd h hcode⟩

theorem Inert.changeCode (o : BitOrder) (cs : CodeSet) (s : State) : Inert s (changeCode o cs s) := by
  rcases changeCode_cases o cs s with ⟨_, he⟩ | ⟨_, _, he⟩ | ⟨_, hl, c, hc, he⟩
  · exact he.symm ▸ Inert.refl s
  · exact he ▸ Inert.flagErr s
  · rw [he]
    exact ⟨fun h => by rw [(Inert.appendSymbol o c s).err h]; rfl, fun h => absurd h (ne_stop_of_transitionSym hc)⟩

theorem Inert.byteStep (o : BitOrder) (fix : Fix) (len : Nat) (s : State) : Inert s (byteStep o fix len s) := by
  rcases byteStep_cases o fix len s with ⟨_, he⟩ | ⟨_, _, he⟩ | ⟨_, _, he⟩ <;> rw [he]
  · exact (Inert.flagErr s).setPos _
  · exact ((Inert.changeCode o _ s).trans (Inert.appendSymbol o _ _)).setPos _
  · exact ((Inert.changeCode o _ s).trans (Inert.appendSymbol o _ _)).setPos _

theorem Inert.appendLoop (o : BitOrder) (fix : Fix) (len fuel : Nat) (s : State) :
    Inert s (appendLoop o fix len fuel s) :=
  appendLoop_induct Inert.refl (fun _ _ _ => Inert.trans) o fix len (fun s _ => Inert.byteStep o fix len s) fuel s

theorem Inert.append (o : BitOrder) (fix : Fix) (len : Nat) (s : State) : Inert s (append o fix len s) :=
  (((Inert.refl s).setPos 0).trans (Inert.appendLoop o fix len len _)).clearPos

theorem Inert.ensureStarted (o : BitOrder) (s : State) : Inert s (ensureStarted o s) := by
  unfold Machine.ensureStarted
  split
  · exact Inert.changeCode o .b s
  · exact Inert.refl s

theorem Inert.appendCheck (o : BitOrder) (s : State) : Inert s (appendCheck o s) := Inert.appendSymbol o s.chk.val s

theorem Inert.finalize (o : BitOrder) (s : State) : Inert s (finalize o s) := by
  by_cases h : s.code = .stop
  · rw [finalize_stop o h]
    exact Inert.refl s
  · rw [finalize_running o h]
    have hsyms := ((Inert.ensureStarted o s).trans (Inert.appendCheck o _)).trans (Inert.appendSymbol o stopSym _)
    exact ⟨fun he => by rw [hsyms.err he]; rfl, fun hc => absurd hc h⟩

/-- The encoder's commands are inert, the refused APSYM included (R164). -/
theorem exec_inert {i : Instr} (hi : encoderCommand i = true) (he : exec i s = .next t) : Inert s t := by
  cases i with
  | chcode tgt => obtain rfl := Host.Outcome.next.inj he; exact (Inert.changeCode _ _ s).respond _ _
  | apsym sym =>
    obtain rfl := eq_ite_of_ite_next he
    split_ifs
    · exact (Inert.appendSymbol _ _ s).respond _ _
    · exact (Inert.refl s).respond _ _
  | append fix len => obtain rfl := Host.Outcome.next.inj he; exact (Inert.append _ _ _ s).respond _ _
  | final => obtain rfl := Host.Outcome.next.inj he; exact (Inert.finalize _ s).respond _ _
  | _ => cases hi

/-! ### The first unencodable byte of a text -/

theorem isDigit_of_unencodable {b : Byte} (h : unencodable b = true) : isDigit (some b) = false := by
  rw [Bool.eq_false_iff]
  intro hd
  simp [isDigit_encodable hd] at h

/-- A byte that is no digit looks, to the bytes before it, like the end of the text (R57, R86). -/
theorem isDigit_txtByte_of_le {txt : Memory} {a : Nat} (hk : k < len) (hd : isDigit (some (txt.read k)) = false)
    (ha : a ≤ k) : isDigit (txtByte txt len a) = isDigit (txtByte txt k a) := by
  rw [Bool.eq_iff_iff, isDigit_txtByte_iff, isDigit_txtByte_iff]
  rcases Nat.eq_or_lt_of_le ha with rfl | hlt
  · simp [hd]
  · simp [hlt, Nat.lt_trans hlt hk]

/-- The compaction test of an earlier byte does not see past a byte that is no digit (R157). -/
theorem compactAt_of_lt {txt : Memory} {p : Nat} (hk : k < len) (hd : isDigit (some (txt.read k)) = false) (hp : p < k)
    (fix : Fix) (code : CodeSet) : compactAt txt len p fix code = compactAt txt k p fix code := by
  have hsame := fun {a : Nat} => isDigit_txtByte_of_le (a := a) hk hd
  have hend : isDigit (txtByte txt k k) = false := by simp [txtByte, isDigit]
  unfold compactAt
  rw [hsame (Nat.le_of_lt hp), hsame (show p + 1 ≤ k from hp)]
  by_cases h1 : p + 1 = k
  · rw [h1, hend]
    simp [compact]
  · rw [hsame (show p + 2 ≤ k by omega)]
    by_cases h2 : p + 2 = k
    · rw [h2, hend]
      simp [compact]
    · rw [hsame (show p + 3 ≤ k by omega)]

theorem byteStep_of_lt (hk : k < len) (hd : isDigit (some (s.txt.read k)) = false) (hp : s.pos < k) :
    byteStep o fix len s = byteStep o fix k s := by
  simp only [byteStep, compactAt_of_lt hk hd hp]

/-- The loop over a text with a byte that is no digit at `k` first runs as the loop over the `k` bytes before it, which
ends at `k`; `m` is the fuel that the longer text adds. -/
theorem appendLoop_split (hk : k < len) (hd : isDigit (some (s.txt.read k)) = false) (m : Nat) {fuel : Nat}
    (hp : s.pos ≤ k) (hfuel : k ≤ s.pos + fuel) :
    (appendLoop o fix k fuel s).pos = k ∧
    ∃ n, appendLoop o fix len (fuel + m) s = appendLoop o fix len (n + m) (appendLoop o fix k fuel s) := by
  induction fuel generalizing s with
  | zero => exact ⟨Nat.le_antisymm hp hfuel, 0, rfl⟩
  | succ fuel ih =>
    rw [Nat.succ_add, appendLoop, appendLoop]
    by_cases hlt : s.pos < k
    · obtain ⟨hadvance, hend⟩ := byteStep_pos o fix k hlt
      have htxt := (Extends.byteStep o fix k s).txt
      rw [if_pos hlt, if_pos (Nat.lt_trans hlt hk), byteStep_of_lt hk hd hlt]
      exact ih (htxt ▸ hd) hend (by omega)
    · rw [if_neg hlt]
      exact ⟨by omega, fuel + 1, by rw [Nat.succ_add, appendLoop]⟩

/-- An APPEND whose byte `k` is unencodable sets ERR there, after an APPEND of the bytes before it, and changes neither
BUF nor CURSOR, CHK or NSYM from there on (R156, R159 d). -/
theorem append_of_unencodable (hk : k < len) (hu : unencodable (s.txt.read k) = true) :
    (append o fix len s).err = true ∧ (append o fix len s).buf = (append o fix k s).buf ∧
    (append o fix len s).cursor = (append o fix k s).cursor ∧ (append o fix len s).chk = (append o fix k s).chk ∧
    (append o fix len s).nsym = (append o fix k s).nsym := by
  obtain ⟨hpos, n, hloop⟩ := appendLoop_split (o := o) (fix := fix) (s := s.setPos 0) hk
    (isDigit_of_unencodable hu) (len - k) (fuel := k) (by simp) (by simp)
  rw [Nat.add_sub_cancel' (Nat.le_of_lt hk)] at hloop
  rw [append, append, hloop]
  have htxt := (Extends.appendLoop o fix k k (s.setPos 0)).txt
  generalize appendLoop o fix k k (s.setPos 0) = v at hpos htxt
  obtain ⟨m, hm⟩ : ∃ m, n + (len - k) = m + 1 := ⟨n + (len - k) - 1, by omega⟩
  have hbyte : byteStep o fix len v = v.flagErr.setPos (k + 1) := by
    rcases byteStep_cases o fix len v with ⟨_, he⟩ | ⟨hu', _⟩ | ⟨hu', _⟩
    · rw [he, hpos]
    · simp [htxt, hpos, hu] at hu'
    · simp [htxt, hpos, hu] at hu'
  have hrest := (Inert.appendLoop o fix len m (v.flagErr.setPos (k + 1))).err rfl
  rw [hm, appendLoop, if_pos (hpos ▸ hk), hbyte, hrest]
  exact ⟨rfl, rfl, rfl, rfl, rfl⟩

end Sys2Proof.Machine

namespace Sys2Proof

open Machine

/-- Settles O33: the APPEND runs as that of the bytes before the first unencodable one, which sets ERR; from there on
the encoder is inert. -/
theorem unencodableByteEndsOutput : Obligations.UnencodableByteEndsOutput := by
  intro fix len k s u hk _ hu hexec
  obtain rfl := Host.Outcome.next.inj hexec
  exact ⟨_, rfl, append_of_unencodable hk (decide_eq_true hu)⟩

/-- Settles O36: every command of the encoder is inert and gives TXTPOS no value; in STOP `Finalize` is the identity. -/
theorem inertEncoder : Obligations.InertEncoder := by
  intro i s t hi hpos he
  have hinert := exec_inert hi he
  have htxtpos : t.txtpos = s.txtpos := by
    obtain ⟨code, v, u, rfl, _, hu⟩ := exec_next_extends he
    exact (hu hpos).trans hpos.symm
  refine ⟨fun h => ?_, fun h => ?_, ?_⟩
  · have ht := hinert.err h
    rwa [htxtpos] at ht
  · have ht := hinert.stop h
    rwa [htxtpos] at ht
  · rintro h rfl
    obtain rfl := Host.Outcome.next.inj he
    rw [finalize_stop _ h]
    rfl

/-- Settles O35: `Finalize` tests for STOP first; with ERR set it is inert, and CODE ends in STOP. -/
theorem finalIdempotentAndSafeAfterError : Obligations.FinalIdempotentAndSafeAfterError := by
  intro s
  refine ⟨fun h => ?_, fun _ herr => ?_⟩
  · rw [exec, execFinal, finalize_stop _ h]
    rfl
  · have hinert := (Inert.finalize Config.bitOrder s).err herr
    rw [finalize_code, finalize_txtpos] at hinert
    rw [exec, execFinal, hinert]
    rfl

end Sys2Proof
end

section
/-! SUPPORT. The symbols that APPEND and FINAL emit (R158, R160), and the checksum over a run of APSYM words (R162). -/

namespace Sys2Proof.Machine

variable {o : BitOrder} {s t : State}

/-! ### Modules and symbols accepted -/

theorem symbolModules_length_stop {syms : List Nat} (h : ∀ c ∈ syms, c ≤ 105) :
    (symbolModules (syms ++ [stopSym])).length = 11 * syms.length + 13 := by
  rw [symbolModules, List.flatMap_append, List.length_append]
  exact congrArg₂ (· + ·) (symbolModules_length h) (by simp [symModules_stop])

/-- Without an overflow every symbol is accepted (R150). -/
theorem Emits.accepts_eq {syms : List Nat} (h : Emits o s t syms) (he : t.err = false) :
    s.accepts syms.length = syms.length := by
  have hall := h.nsym he
  have hcount := (h.count (h.err_mono he)).1
  omega

/-! ### Finalize -/

/-- From NONE with ERR clear FINAL first emits START-B (R160). -/
theorem finalize_of_none (hc : s.code = .none) :
    finalize o s = finalize o ((appendSymbol o 104 s).setCode .b) := by
  have hstart : ensureStarted o s = (appendSymbol o 104 s).setCode .b := by
    rw [ensureStarted, if_pos hc]
    exact changeCode_of_transitionSym (by simp [hc]) (by rw [hc]; rfl)
  rw [finalize_running o (by simp [hc]), finalize_running o (by simp), hstart]
  rfl

/-- The registers after an error-free FINAL of a started run: the check symbol and STOP are counted and folded in
(R160). -/
theorem finalize_registers (hc : s.code ≠ .stop) (hn : s.code ≠ .none) (he : (finalize o s).err = false) :
    (finalize o s).nsym = s.nsym + 2 ∧
    (finalize o s).chk.val = (s.chk.val + max s.nsym 1 * s.chk.val + (s.nsym + 1) * 106) % 103 := by
  have herr := (Extends.finalize o s).err_eq_false he
  have hemits := finalize_emits o (overflowOnly_of_err herr) hc hn
  refine ⟨hemits.nsym he, (hemits.chk he).trans ?_⟩
  simp [weightedFrom, stopSym, Nat.add_assoc]

/-- The same from NONE, with the check value `k` that START-B leaves. -/
theorem finalize_emits_of_none (hc : s.code = .none) (herr : s.err = false) {k : Nat}
    (hk : k = (s.chk.val + max s.nsym 1 * 104) % 103) :
    Emits o s (finalize o s) [104, k, stopSym] ∧ ((finalize o s).err = false →
      (finalize o s).nsym = s.nsym + 3 ∧
      (finalize o s).chk.val = (k + (s.nsym + 1) * k + (s.nsym + 2) * 106) % 103) := by
  have hcode : s.code ≠ .stop := by simp [hc]
  obtain ⟨_, _, hchk, hnsym⟩ := appendSymbol_registers o 104 herr hcode
  have hstart := (Emits.appendSymbol o 104 (overflowOnly_of_err herr) hcode).setCode .b
  have hfinal := finalize_emits o (s := (appendSymbol o 104 s).setCode .b)
    (hstart.overflowOnly (overflowOnly_of_err herr)) (by simp) (by simp)
  have hregs := finalize_registers (o := o) (s := (appendSymbol o 104 s).setCode .b) (by simp) (by simp)
  simp only [State.setCode_chk, State.setCode_nsym, hchk, hnsym, ← hk, ← finalize_of_none hc] at hfinal hregs
  refine ⟨hstart.trans (by simp) hfinal, fun he => ?_⟩
  simpa [Nat.add_assoc] using hregs he

/-! ### A run of APSYM words -/

theorem run_succ_of_step (M : Host.Core) {n : Nat} {s t : M.State} (h : M.step s = .next t) :
    M.run (n + 1) s = M.run n t := by
  rw [Host.Core.run, h]

/-- A step on the word of a legal APSYM appends its symbol (R91, R151). -/
theorem step_apsym {c : BitVec 7} (hc : c.toNat ≤ 106) {ms : List HostMove}
    (h : s.agenda = .command (encode (.apsym c)) :: ms) :
    step s = .next ((appendSymbol Config.bitOrder c.toNat (s.setAgenda ms)).respond .ok 0) := by
  have hdecode : decode (encode (.apsym c)) = .ok (.apsym c) :=
    decode_ok_iff.2 ⟨decide_eq_true (Nat.lt_succ_of_le hc), rfl⟩
  calc step s = runWord _ (s.setAgenda ms) := step_of_agenda_cons h
    _ = exec (.apsym c) (s.setAgenda ms) := runWord_of_decode_ok hdecode _
    _ = _ := exec_apsym_of_le hc _

/-- With room for the widest symbol the step counts the symbol, stays free of error, and takes at most 13 modules
(R110, R150). -/
theorem step_apsym_of_fits {c : BitVec 7} (hc : c.toNat ≤ 106) {ms : List HostMove}
    (h : s.agenda = .command (encode (.apsym c)) :: ms) (herr : s.err = false) (hcode : s.code ≠ .stop)
    (hroom : s.cursor + 13 ≤ 8 * s.cap) :
    ∃ t, step s = .next t ∧ t.agenda = ms ∧ t.code = s.code ∧ t.cap = s.cap ∧ t.cursor ≤ s.cursor + 13 ∧
      t.err = false ∧ t.chk.val = (s.chk.val + max s.nsym 1 * c.toNat) % 103 ∧ t.nsym = s.nsym + 1 := by
  obtain ⟨hcursor, herr', hchk, hnsym⟩ :=
    appendSymbol_registers (s := s.setAgenda ms) Config.bitOrder c.toNat herr hcode
  have hext := Extends.appendSymbol Config.bitOrder hc (s.setAgenda ms)
  have hlen : (symModules c.toNat).length ≤ 13 := by
    rw [symModules_length_eq hc]
    split_ifs <;> decide
  refine ⟨_, step_apsym hc h, hext.agenda, appendSymbol_code _ _ _, hext.cap, hcursor.trans_le ?_, ?_, hchk, hnsym⟩
  · simp only [State.cursorAfter, State.setAgenda_cursor]
    omega
  · refine herr'.trans (Bool.eq_false_iff.2 fun hover => ?_)
    simp only [errAfter_iff, State.setAgenda_err, State.setAgenda_cap, State.setAgenda_cursor, herr,
      Bool.false_eq_true, false_or] at hover
    omega

/-- With room for every symbol, a run of APSYM words counts them all and adds their weighted sum to CHK, from any count
and checksum on (R162). -/
theorem run_apsym (syms : List (BitVec 7)) (hsyms : ∀ c ∈ syms, c.toNat ≤ 106) (hcode : s.code ≠ .stop)
    (herr : s.err = false) (hroom : s.cursor + 13 * syms.length ≤ 8 * s.cap)
    (hagenda : s.agenda = syms.map fun c => HostMove.command (encode (.apsym c))) :
    ∃ t, core.run syms.length s = .next t ∧ t.nsym = s.nsym + syms.length ∧ t.err = false ∧ t.agenda = [] ∧
      t.chk.val = (s.chk.val + weightedFrom s.nsym (syms.map BitVec.toNat)) % 103 := by
  induction syms generalizing s with
  | nil => exact ⟨s, rfl, rfl, herr, hagenda, (Nat.mod_eq_of_lt s.chk.isLt).symm⟩
  | cons c syms ih =>
    obtain ⟨hc, hrest⟩ := List.forall_mem_cons.1 hsyms
    rw [List.length_cons] at hroom
    obtain ⟨u, hstep, hagenda', hcode', hcap, hcursor, herr', hchk, hnsym⟩ :=
      step_apsym_of_fits hc hagenda herr hcode (by omega)
    obtain ⟨t, hrun, htnsym, hterr, htagenda, htchk⟩ := ih hrest (hcode' ▸ hcode) herr' (by omega) hagenda'
    refine ⟨t, (run_succ_of_step core hstep).trans hrun, ?_, hterr, htagenda, ?_⟩
    · rw [htnsym, hnsym, List.length_cons]
      omega
    · rw [htchk, hchk, hnsym, List.map_cons, weightedFrom, Nat.mod_add_mod, Nat.add_assoc]

end Sys2Proof.Machine

namespace Sys2Proof

open Machine

/-- Settles O32: APPEND emits the symbols of its text, each of 11 modules. -/
theorem appendEmitsTextSymbols : Obligations.AppendEmitsTextSymbols := by
  intro fix len s henc herr hcode hw
  obtain ⟨hemits, htextCode⟩ :=
    append_emits Config.bitOrder fix len.toNat henc (overflowOnly_of_err herr) hcode
  have hext := Extends.append Config.bitOrder fix len.toNat s
  obtain ⟨hnsym, hchk⟩ := hemits.count herr
  rw [← symbolModules_length (textSymbols_range henc)]
  exact ⟨_, rfl, hemits.cursor, hemits.errAfter, hemits.stored hw, hnsym, hchk, hemits.accepts_eq, htextCode,
    hext.bufKept hw, hext.hostKept, rfl, rfl⟩

/-- Settles O34: FINAL emits the check symbol and STOP, 11 and 13 modules, from a state that has started; from NONE
that state is the one that START-B leaves. -/
theorem finalClosesRun : Obligations.FinalClosesRun := by
  intro s herr hw
  have hext := Extends.finalize Config.bitOrder s
  refine ⟨fun hcode => ?_, fun hcode => ?_⟩
  · obtain ⟨hstop, hnone⟩ : s.code ≠ .stop ∧ s.code ≠ .none := by rcases hcode with h | h | h <;> simp [h]
    have hemits := finalize_emits Config.bitOrder (overflowOnly_of_err herr) hstop hnone
    obtain ⟨hnsym, hchk⟩ := hemits.count herr
    have hcheck : s.chk.val ≤ 105 := Nat.le_of_lt (Nat.lt_trans s.chk.isLt (by decide))
    have hlen : (symbolModules [s.chk.val, stopSym]).length = 24 :=
      symbolModules_length_stop (syms := [s.chk.val]) (List.forall_mem_singleton.2 hcheck)
    exact ⟨_, rfl, finalize_code _ s, hlen ▸ hemits.cursor, hlen ▸ hemits.errAfter, hemits.stored hw, hnsym, hchk,
      finalize_registers hstop hnone, hext.bufKept hw, hext.hostKept, finalize_txtpos _ s, rfl⟩
  · obtain ⟨hemits, hregisters⟩ := finalize_emits_of_none (o := Config.bitOrder) hcode herr rfl
    obtain ⟨hnsym, hchk⟩ := hemits.count herr
    have hlen : (symbolModules [104, (s.chk.val + max s.nsym 1 * 104) % 103, stopSym]).length = 35 :=
      symbolModules_length_stop (syms := [104, (s.chk.val + max s.nsym 1 * 104) % 103]) (by simp; omega)
    exact ⟨_, _, rfl, rfl, finalize_code _ s, hlen ▸ hemits.cursor, hlen ▸ hemits.errAfter, hemits.stored hw,
      hnsym, hchk, hregisters, hext.bufKept hw, hext.hostKept, finalize_txtpos _ s, rfl⟩

/-- Settles O37: `run_apsym` from the count and the checksum 0. -/
theorem checksumLaw : Obligations.ChecksumLaw := by
  intro syms s hsyms hcode herr hnsym hchk hroom hagenda
  have h := run_apsym syms hsyms hcode herr hroom hagenda
  rw [hnsym, hchk] at h
  simpa using h

end Sys2Proof
end

section
/-! SUPPORT. Run-reset and the commands that start a run (R190 to R192): nothing else leads back, INIT resets the run
and touches no byte of BUF, and the registers do not depend on what BUF holds (R195). -/

namespace Sys2Proof.Machine

variable {s t : State}

theorem Inert.code_stop (h : Inert s t) (hs : s.code = .stop) : t.code = .stop := by
  rw [h.stop hs]
  exact hs

/-- Outside a reset of the run STOP is terminal: the sink leaves CODE alone, and the encoder is inert there (R21). -/
theorem exec_code_stop {i : Instr} (hrun : startsRun i = false) (he : exec i s = .next t) (hs : s.code = .stop) :
    t.code = .stop := by
  cases i with
  | init _ | encode _ _ _ => cases hrun
  | chcode _ | apsym _ | append _ _ | final => exact (exec_inert rfl he).code_stop hs
  | wrmod pat width =>
    obtain rfl := eq_ite_of_ite_next he
    split_ifs
    · exact (writeAll_code _ _ s).trans hs
    · exact hs
  | quiet n =>
    obtain rfl := Host.Outcome.next.inj he
    exact (writeAll_code _ _ s).trans hs
  | rdreg reg =>
    obtain rfl := Host.Outcome.next.inj he
    exact hs
  | rdmod idx =>
    obtain ⟨code, v, he'⟩ := exec_rdmod_responds idx s
    obtain rfl := Host.Outcome.next.inj (he.symm.trans he')
    exact hs

/-- The relation that holds of any two buffers, so that it lets twins differ in BUF at will (R195). -/
def AnyBuffers (_ : Nat) (_ _ : Memory) : Prop := True

theorem keptByStore_anyBuffers (o : BitOrder) : KeptByStore o o AnyBuffers := fun _ _ _ _ _ => trivial

end Sys2Proof.Machine

namespace Sys2Proof

open Machine

/-- Settles O21: a command that starts no run extends the state it finds, and STOP is terminal for each of them. -/
theorem runResetIsTheOnlyWayBack : Obligations.RunResetIsTheOnlyWayBack := by
  refine ⟨fun s => ⟨rfl, rfl, rfl, rfl, rfl, rfl, rfl⟩, fun i s t hrun he => ?_⟩
  have hstop := exec_code_stop hrun he
  obtain ⟨code, v, u, rfl, hext, _⟩ := exec_next_extends he
  rw [runStart_of_startsRun_eq_false hrun] at hext
  exact ⟨hext.err, hstop, hext.cursor_le, hext.nsym_le⟩

/-- Settles O22: the word is the one that INIT encodes to, and its meaning is two register updates. -/
theorem initStartsRun : Obligations.InitStartsRun :=
  fun cap _ => ⟨encodingRoundTrip (.init cap) rfl, rfl⟩

/-- Settles O51: states that differ in BUF alone are twins, whatever the two buffers hold, and only RDMOD asks more. -/
theorem bufferNeverSteersRegisters : Obligations.BufferNeverSteersRegisters := by
  intro i s t m hi he
  have htwin : Twin AnyBuffers s.txt s { s with buf := m } := ⟨m, rfl, trivial⟩
  obtain ⟨s', t', hs', ht', b, rfl, _⟩ := htwin.exec (keptByStore_anyBuffers _) (fun _ _ _ => id) i
    (fun _ _ => rfl) (fun idx hidx => absurd hidx (hi idx))
  obtain rfl := Host.Outcome.next.inj (he.symm.trans hs')
  have htxt : t.txt = s.txt := (commandFrames i s t he).1
  exact ⟨b, ht'.trans (congrArg _ (State.setTxt_of_txt_eq htxt b))⟩

end Sys2Proof
end

section
/-! SUPPORT. How long the symbol sequence of a text is (R200): at most two symbols for each byte, and under AUTO half a
symbol for each digit of a text of digits. -/

namespace Sys2Proof.Machine

variable {fix : Fix} {cur : CodeSet}

/-! ### Any text -/

theorem State.text_length (s : State) (len : Nat) : (s.text len).length = len := by simp [State.text]

/-- A change of code set emits at most one symbol (R152). -/
theorem moveSyms_length_le (cur t : CodeSet) : (moveSyms cur t).length ≤ 1 := by
  unfold moveSyms
  split_ifs
  · exact Nat.zero_le 1
  · cases transitionSym cur t <;> simp

/-- A byte costs at most a change of code set and a character (R158). -/
theorem textSymbols_length_le (fix : Fix) (cur : CodeSet) (bytes : List Byte) :
    (textSymbols fix cur bytes).length ≤ 2 * bytes.length := by
  fun_induction textSymbols with
  | case1 => exact Nat.le_refl 0
  | case2 cur b =>
    have hmove := moveSyms_length_le cur (target Config.bReqLo b fix)
    simp only [List.length_append, List.length_cons, List.length_nil]
    omega
  | case3 cur b0 b1 rest _ ih =>
    have hmove := moveSyms_length_le cur .c
    simp only [List.length_append, List.length_cons]
    omega
  | case4 cur b0 b1 rest _ ih =>
    have hmove := moveSyms_length_le cur (target Config.bReqLo b0 fix)
    simp only [List.length_append, List.length_cons] at ih ⊢
    omega

theorem runSymbols_length (fix : Fix) (bytes : List Byte) :
    (runSymbols fix bytes).length = (bodySymbols fix bytes).length + 2 := by
  rw [runSymbols, List.length_append]
  rfl

/-- A run has at most two symbols for each byte and, for the empty text, START-B; then the check symbol and STOP
(R200). -/
theorem runSymbols_length_le (fix : Fix) (bytes : List Byte) :
    (runSymbols fix bytes).length ≤ 2 * bytes.length + 3 := by
  rw [runSymbols_length, bodySymbols]
  split_ifs
  · simp
  · have := textSymbols_length_le fix .none bytes
    omega

/-! ### A text of digits -/

theorem target_digit {b : Byte} (h : isDigit (some b) = true) : target Config.bReqLo b .auto = .b := by
  have hdigit := of_decide_eq_true h
  rw [target_auto, if_neg (Nat.not_le_of_lt (Nat.lt_of_lt_of_le (by decide) hdigit.1))]

/-- Before any START and in Code C two digits are written as a pair, whatever follows them (R157). -/
theorem textSymbols_pair {b0 b1 : Byte} (rest : List Byte) (h0 : isDigit (some b0) = true)
    (h1 : isDigit (some b1) = true) (hcur : cur = .none ∨ cur = .c) : textSymbols .auto cur (b0 :: b1 :: rest) =
      moveSyms cur .c ++ pairSym b0 b1 :: textSymbols .auto .c rest :=
  if_pos ((compact_iff _ _ _ _ _ _).2 ⟨h0, h1, rfl, .inr (hcur.imp_right .inl)⟩)

/-- In Code C a pair of digits costs one symbol, and a lone last digit a switch to Code B and a character (R157). -/
theorem textSymbols_digits_length {bytes : List Byte} (h : ∀ b ∈ bytes, isDigit (some b) = true) :
    (textSymbols .auto .c bytes).length = bytes.length / 2 + 2 * (bytes.length % 2) := by
  induction bytes using List.twoStepInduction with
  | nil => rfl
  | singleton b =>
    have hswitch : moveSyms .c .b = [100] := rfl
    rw [textSymbols, target_digit (h b List.mem_cons_self), hswitch]
    simp
  | cons_cons b0 b1 rest ih _ =>
    obtain ⟨h0, h1, hrest⟩ : _ ∧ _ ∧ _ := by simpa only [List.forall_mem_cons] using h
    rw [textSymbols_pair rest h0 h1 (.inr rfl), moveSyms, if_pos rfl, List.nil_append, List.length_cons, ih hrest]
    simp only [List.length_cons]
    omega

/-- One digit is written in Code B (R157). -/
theorem runSymbols_digit_length {b : Byte} (h : isDigit (some b) = true) : (runSymbols .auto [b]).length = 4 := by
  rw [runSymbols_length, bodySymbols, if_neg (List.cons_ne_nil _ _), textSymbols, target_digit h]
  rfl

/-- Two digits or more start in Code C; START-C, the check symbol and STOP come to the symbols of the digits (R200). -/
theorem runSymbols_digits_length {bytes : List Byte} (h : ∀ b ∈ bytes, isDigit (some b) = true)
    (hlen : 2 ≤ bytes.length) : (runSymbols .auto bytes).length = bytes.length / 2 + 2 * (bytes.length % 2) + 3 := by
  obtain ⟨b0, b1, rest, rfl⟩ : ∃ b0 b1 rest, bytes = b0 :: b1 :: rest := by
    match bytes, hlen with
    | b0 :: b1 :: rest, _ => exact ⟨b0, b1, rest, rfl⟩
  obtain ⟨h0, h1, hrest⟩ : _ ∧ _ ∧ _ := by simpa only [List.forall_mem_cons] using h
  have hstart : moveSyms .none .c = [105] := rfl
  rw [runSymbols_length, bodySymbols, if_neg (List.cons_ne_nil _ _), textSymbols_pair rest h0 h1 (.inl rfl), hstart,
    List.singleton_append, List.length_cons, List.length_cons, textSymbols_digits_length hrest]
  simp only [List.length_cons]
  omega

end Sys2Proof.Machine

namespace Sys2Proof

open Machine

/-- Settles O48: no digit, one, or pairs in Code C with at most one digit after them. -/
theorem digitRunSymbolCount : Obligations.DigitRunSymbolCount := by
  refine fun bytes h => ⟨?_, fun hlen => ?_, fun hlen heven => ?_, fun hlen hodd => ?_⟩
  · rintro rfl
    rfl
  · obtain ⟨b, rfl⟩ := List.length_eq_one_iff.1 hlen
    exact runSymbols_digit_length (h b List.mem_cons_self)
  · rw [runSymbols_digits_length h hlen]
    omega
  · rw [runSymbols_digits_length h (Nat.le_of_succ_le hlen)]
    omega

end Sys2Proof
end

section
/-! SUPPORT. ENCODE as the six commands that it stands for (R196): each of their procedures works alike whatever
response an earlier command has left. -/

namespace Sys2Proof.Machine

variable (o : BitOrder) (fix : Fix) (len : Nat) (s : State) (r : RespCode) (v : Nat)

@[simp] theorem State.respond_respond (r' : RespCode) (v' : Nat) :
    (s.respond r v).respond r' v' = s.respond r' v' := rfl

@[simp] theorem writeModule_respond (m : Module) :
    writeModule o m (s.respond r v) = (writeModule o m s).respond r v := by
  rcases writeModule_cases o m s with ⟨h, he⟩ | ⟨h, he⟩ <;> rw [he]
  · exact if_pos ((hasRoom_iff _).2 h)
  · exact if_neg (mt (hasRoom_iff _).1 (Nat.not_lt_of_le h))

@[simp] theorem writeAll_respond (ms : List Module) :
    writeAll o ms (s.respond r v) = (writeAll o ms s).respond r v := by
  induction ms generalizing s with
  | nil => rfl
  | cons m ms ih => rw [writeAll, writeModule_respond, ih, writeAll]

@[simp] theorem appendSymbol_respond (c : Nat) :
    appendSymbol o c (s.respond r v) = (appendSymbol o c s).respond r v := by
  rcases appendSymbol_cases o c s with ⟨h, he⟩ | ⟨herr, hcode, he⟩ <;> rw [he]
  · exact appendSymbol_inert o c h
  · rw [appendSymbol_accepted o c (s := s.respond r v) herr hcode, writeAll_respond]
    rfl

@[simp] theorem changeCode_respond (cs : CodeSet) :
    changeCode o cs (s.respond r v) = (changeCode o cs s).respond r v := by
  unfold changeCode
  simp only [State.respond_code, appendSymbol_respond]
  split_ifs
  · rfl
  · cases transitionSym s.code cs <;> rfl

theorem byteStep_respond : byteStep o fix len (s.respond r v) = (byteStep o fix len s).respond r v := by
  have hpos : (s.respond r v).pos = s.pos := rfl
  unfold byteStep
  simp only [State.respond_txt, State.respond_code, changeCode_respond, appendSymbol_respond, hpos]
  split_ifs <;> rfl

theorem appendLoop_respond (fuel : Nat) :
    appendLoop o fix len fuel (s.respond r v) = (appendLoop o fix len fuel s).respond r v := by
  induction fuel generalizing s with
  | zero => rfl
  | succ fuel ih =>
    have hpos : (s.respond r v).pos = s.pos := rfl
    rw [appendLoop, appendLoop, byteStep_respond, ih, hpos]
    split_ifs <;> rfl

@[simp] theorem append_respond : append o fix len (s.respond r v) = (append o fix len s).respond r v :=
  congrArg State.clearPos (appendLoop_respond o fix len (s.setPos 0) r v len)

@[simp] theorem finalize_respond : finalize o (s.respond r v) = (finalize o s).respond r v := by
  have hstart : ensureStarted o (s.respond r v) = (ensureStarted o s).respond r v := by
    unfold ensureStarted
    rw [changeCode_respond, State.respond_code]
    split_ifs <;> rfl
  by_cases h : s.code = .stop
  · rw [finalize_stop o (s := s.respond r v) h, finalize_stop o h]
  · rw [finalize_running o (s := s.respond r v) h, finalize_running o h, hstart, appendCheck,
      appendSymbol_respond, appendSymbol_respond]
    rfl

/-! ### The commands of the sequence -/

variable {s}

theorem exec_init_cap (h : s.cap < 2 ^ 24) :
    exec (.init (BitVec.ofNat 24 s.cap)) s = .next (s.runReset.respond .ok 0) := by
  have hcap : (BitVec.ofNat 24 s.cap).toNat = s.cap := Nat.mod_eq_of_lt h
  rw [exec, execInit, hcap]
  rfl

variable (s)

theorem exec_quiet_respond (qz : BitVec 8) : exec (.quiet (qz.setWidth 16)) (s.respond r v) =
    .next ((quiet Config.bitOrder qz.toNat s).respond .ok 0) := by
  have hqz : (qz.setWidth 16).toNat = qz.toNat := BitVec.toNat_setWidth_of_le (by decide)
  rw [exec, execQuiet, hqz, quiet_eq, writeAll_respond, State.respond_respond, quiet_eq]

theorem exec_append_respond (len : BitVec 16) : exec (.append fix len) (s.respond r v) =
    .next ((append Config.bitOrder fix len.toNat s).respond .ok 0) := by
  rw [exec, execAppend, append_respond, State.respond_respond]

theorem exec_final_respond : exec .final (s.respond r v) = .next ((finalize Config.bitOrder s).respond .ok 0) := by
  rw [exec, execFinal, finalize_respond, State.respond_respond]

end Sys2Proof.Machine

namespace Sys2Proof

open Machine

/-- Settles O41: each command of the sequence runs its procedure of ENCODE, and the last response stands. -/
theorem encodeEqualsItsSequence : Obligations.EncodeEqualsItsSequence :=
  fun fix qz len _ hcap => ⟨_, _, _, _, _, _, exec_init_cap hcap, exec_quiet_respond _ _ _ qz,
    exec_append_respond fix _ _ _ len, exec_final_respond _ _ _, exec_quiet_respond _ _ _ qz, rfl, rfl⟩

end Sys2Proof
end

section
/-! SUPPORT. The modules of a whole run (R163): how many there are, and the colours at the ends of their three parts. -/

namespace Sys2Proof.Machine

variable {fix : Fix} {qz j : Nat} {bytes : List Byte}

/-- A run on encodable text is symbols of 11 modules, at least one, and then STOP (R163). -/
theorem runSymbols_eq_append_stop (fix : Fix) (h : encodable bytes) :
    ∃ c cs, runSymbols fix bytes = (c :: cs) ++ [stopSym] ∧ ∀ d ∈ c :: cs, d ≤ 105 := by
  have hcheck : checkSymbol fix bytes ≤ 105 :=
    Nat.le_of_lt (Nat.lt_trans (Nat.mod_lt _ (by decide : 0 < Config.modulus)) (by decide))
  have hrange : ∀ d ∈ bodySymbols fix bytes ++ [checkSymbol fix bytes], d ≤ 105 :=
    List.forall_mem_append.2 ⟨bodySymbols_range h, List.forall_mem_singleton.2 hcheck⟩
  have hrun : runSymbols fix bytes = bodySymbols fix bytes ++ [checkSymbol fix bytes] ++ [stopSym] :=
    (List.append_assoc _ [_] [_]).symm
  obtain ⟨c, cs, hdata⟩ := List.exists_cons_of_ne_nil
    (List.append_ne_nil_of_right_ne_nil (bodySymbols fix bytes) (List.cons_ne_nil (checkSymbol fix bytes) []))
  exact ⟨c, cs, hdata ▸ hrun, hdata ▸ hrange⟩

theorem symbolModules_runSymbols_length (fix : Fix) (h : encodable bytes) :
    (symbolModules (runSymbols fix bytes)).length = 11 * (runSymbols fix bytes).length + 2 := by
  obtain ⟨c, cs, hrun, hrange⟩ := runSymbols_eq_append_stop fix h
  rw [hrun, symbolModules_length_stop hrange, List.length_append, List.length_singleton]
  omega

theorem runModules_length (fix : Fix) (qz : Nat) (h : encodable bytes) :
    (runModules fix qz bytes).length = modulesFor (runSymbols fix bytes).length qz := by
  rw [runModules, List.length_append, List.length_append, List.length_replicate, symbolModules_runSymbols_length fix h,
    modulesFor]
  omega

/-- Every symbol starts with a bar (R111). -/
theorem head?_symbolModules_cons {c : Nat} (hc : c ≤ 106) (cs : List Nat) :
    (symbolModules (c :: cs)).head? = some dark := by
  obtain ⟨_, _, hfirst, _⟩ := symWidths_range c (Nat.lt_succ_of_le hc)
  rw [symbolModules, List.flatMap_cons, List.head?_append, hfirst]
  rfl

/-- STOP ends with a bar (R112). -/
theorem getLast?_symbolModules_stop (cs : List Nat) : (symbolModules (cs ++ [stopSym])).getLast? = some dark := by
  obtain ⟨_, _, _, hlast⟩ := symWidths_range stopSym (by decide)
  rw [symbolModules, List.flatMap_append, List.flatMap_singleton, List.getLast?_append, hlast]
  rfl

/-! ### Quiet zones and outer symbol modules -/

theorem runModules_leading (fix : Fix) (bytes : List Byte) (h : j < qz) :
    (runModules fix qz bytes)[j]? = some light := by
  rw [runModules, List.append_assoc, List.getElem?_append_left (by simpa using h), List.getElem?_replicate_of_lt h]

theorem runModules_trailing (fix : Fix) (bytes : List Byte) (hlo : (runModules fix qz bytes).length - qz ≤ j)
    (h : j < (runModules fix qz bytes).length) : (runModules fix qz bytes)[j]? = some light := by
  unfold runModules at hlo h ⊢
  rw [List.length_append, List.length_replicate] at hlo h
  rw [List.getElem?_append_right (by omega), List.getElem?_replicate_of_lt (by omega)]

/-- Between the quiet zones stand the modules of the symbols. -/
theorem runModules_symbols (fix : Fix) {bytes : List Byte} {k : Nat}
    (h : k < (symbolModules (runSymbols fix bytes)).length) :
    (runModules fix qz bytes)[qz + k]? = (symbolModules (runSymbols fix bytes))[k]? := by
  have hlen : (List.replicate qz light).length = qz := List.length_replicate
  rw [runModules, List.append_assoc, List.getElem?_append_right (by omega), hlen, Nat.add_sub_cancel_left,
    List.getElem?_append_left h]

theorem runModules_first_dark (fix : Fix) (qz : Nat) (h : encodable bytes) :
    (runModules fix qz bytes)[qz]? = some dark := by
  obtain ⟨c, cs, hrun, hrange⟩ := runSymbols_eq_append_stop fix h
  have hlen := symbolModules_runSymbols_length fix h
  have hhead := head?_symbolModules_cons (Nat.le_succ_of_le (hrange c List.mem_cons_self)) (cs ++ [stopSym])
  rw [← List.cons_append, ← hrun, List.head?_eq_getElem?] at hhead
  exact (runModules_symbols fix (k := 0) (by omega)).trans hhead

theorem runModules_last_dark (fix : Fix) (qz : Nat) (h : encodable bytes) :
    (runModules fix qz bytes)[(runModules fix qz bytes).length - qz - 1]? = some dark := by
  obtain ⟨c, cs, hrun, _⟩ := runSymbols_eq_append_stop fix h
  have hlen := symbolModules_runSymbols_length fix h
  have hlast := getLast?_symbolModules_stop (c :: cs)
  rw [← hrun, List.getLast?_eq_getElem?] at hlast
  have hindex : (runModules fix qz bytes).length - qz - 1 =
      qz + ((symbolModules (runSymbols fix bytes)).length - 1) := by
    rw [runModules_length fix qz h, modulesFor]
    omega
  rw [hindex]
  exact (runModules_symbols fix (by omega)).trans hlast

end Sys2Proof.Machine
end

section
/-! SUPPORT. An ENCODE on encodable text in numbers: CURSOR, ERR, the modules stored, NSYM and CHK, with room and
without (R192, R194, R199). -/

namespace Sys2Proof.Machine

variable {o : BitOrder} {fix : Fix} {qz len : Nat} {s : State}

/-! ### On encodable text -/

theorem encodeRun_cap (o : BitOrder) (fix : Fix) (qz len : Nat) (s : State) :
    (encodeRun o fix qz len s).cap = s.cap := (Extends.encodeRun o fix qz len s).cap

theorem encodeRun_cursor_le (o : BitOrder) (fix : Fix) (qz len : Nat) (s : State) :
    (encodeRun o fix qz len s).cursor ≤ 8 * s.cap := by
  simpa using (Extends.encodeRun o fix qz len s).cursor_bound

/-- CURSOR stands after the modules of the run, or at the end of the buffer (R199). -/
theorem encodeRun_cursor (henc : encodable (s.text len)) : (encodeRun o fix qz len s).cursor =
    min (modulesFor (runSymbols fix (s.text len)).length qz) (8 * s.cap) := by
  rw [(encodeRun_sinkEq henc).cursor, writeAll_cursor, runModules_length fix qz henc, State.cursorAfter]
  simp

/-- ENCODE errs on encodable text exactly when the run does not fit (R199). -/
theorem encodeRun_err_iff (henc : encodable (s.text len)) : (encodeRun o fix qz len s).err = true ↔
    8 * s.cap < modulesFor (runSymbols fix (s.text len)).length qz := by
  rw [(encodeRun_sinkEq henc).err, writeAll_err, runModules_length fix qz henc, errAfter_iff]
  simp only [State.runReset_err, State.runReset_cap, State.runReset_cursor, Bool.false_eq_true, false_or]
  omega

theorem encodeRun_cursor_of_err_eq_false (he : (encodeRun o fix qz len s).err = false) :
    (encodeRun o fix qz len s).cursor = modulesFor (runSymbols fix (s.text len)).length qz := by
  have henc := encodable_of_encodeRun he
  have hfits := mt (encodeRun_err_iff henc).2 (Bool.eq_false_iff.1 he)
  exact (encodeRun_cursor henc).trans (Nat.min_eq_left (Nat.le_of_not_lt hfits))

theorem encodeRun_cursor_of_err (henc : encodable (s.text len)) (he : (encodeRun o fix qz len s).err = true) :
    (encodeRun o fix qz len s).cursor = 8 * s.cap :=
  (encodeRun_cursor henc).trans (Nat.min_eq_right (Nat.le_of_lt ((encodeRun_err_iff henc).1 he)))

/-- The modules of the run are stored from module 0 on, as far as they fit (R192, R199). -/
theorem encodeRun_stored (henc : encodable (s.text len)) (hw : s.buf.wf = true) :
    Stored (encodeRun Config.bitOrder fix qz len s) 0 (encodeRun Config.bitOrder fix qz len s).cursor
      (runModules fix qz (s.text len)) := by
  have hsink := encodeRun_sinkEq (o := Config.bitOrder) (fix := fix) (qz := qz) henc
  intro k hk
  rw [hsink.buf]
  exact writeAll_module (s := s.runReset) _ _ hw (hsink.cursor ▸ hk)

/-- Without an error every module of the run reads back at its index (R163). -/
theorem encodeRun_readModule (hw : s.buf.wf = true) (he : (encodeRun Config.bitOrder fix qz len s).err = false)
    {j : Nat} {m : Module} (hm : (runModules fix qz (s.text len))[j]? = some m) :
    readModule Config.bitOrder (encodeRun Config.bitOrder fix qz len s).buf j = m := by
  have henc := encodable_of_encodeRun he
  have hlt := (List.getElem?_eq_some_iff.1 hm).1
  rw [runModules_length fix qz henc, ← encodeRun_cursor_of_err_eq_false he, ← Nat.zero_add j] at hlt
  have hread := encodeRun_stored henc hw j hlt
  rw [Nat.zero_add] at hread
  exact Option.some.inj (hread.symm.trans hm)

@[simp] theorem quiet_chk (o : BitOrder) (n : Nat) (s : State) : (quiet o n s).chk = s.chk := writeAll_chk o _ s

/-- No symbol is accepted after a leading quiet zone that overflows; else NSYM counts the symbols accepted from the end
of the quiet zone on (R150, R199). -/
theorem encodeRun_nsym_eq_ite (henc : encodable (s.text len)) : (encodeRun o fix qz len s).nsym =
    if 8 * s.cap < qz then 0
    else State.accepts { s with cursor := qz } (runSymbols fix (s.text len)).length := by
  have hemits := encodeRun_emits (o := o) (fix := fix) (qz := qz) henc
  have hquiet : (quiet o qz s.runReset).err = true ↔ 8 * s.cap < qz := by
    rw [quiet_eq, writeAll_err, errAfter_iff, List.length_replicate]
    simp only [State.runReset_err, State.runReset_cap, State.runReset_cursor, Bool.false_eq_true, false_or]
    omega
  rw [encodeRun, quiet_nsym]
  split_ifs with hover
  · obtain ⟨hnsym, _⟩ := hemits.refused (hquiet.2 hover)
    rw [hnsym, quiet_nsym, State.runReset_nsym]
  · obtain ⟨hnsym, _⟩ := hemits.count (Bool.eq_false_iff.2 (mt hquiet.1 hover))
    have hcursor : (quiet o qz s.runReset).cursor = qz := by
      rw [quiet_eq, writeAll_cursor, State.cursorAfter, List.length_replicate, State.runReset_cursor,
        State.runReset_cap]
      omega
    rw [hnsym, quiet_nsym, State.runReset_nsym, Nat.zero_add, State.accepts, State.accepts, hcursor,
      (Extends.quiet o qz s.runReset).cap, State.runReset_cap]

/-- CHK folds in the symbols that NSYM counts (R150, R162). -/
theorem encodeRun_chk (henc : encodable (s.text len)) : (encodeRun o fix qz len s).chk.val =
    weightedFrom 0 ((runSymbols fix (s.text len)).take (encodeRun o fix qz len s).nsym) % 103 := by
  have hemits := encodeRun_emits (o := o) (fix := fix) (qz := qz) henc
  rw [encodeRun, quiet_chk, quiet_nsym]
  by_cases herr : (quiet o qz s.runReset).err = true
  · obtain ⟨hnsym, hchk⟩ := hemits.refused herr
    rw [hnsym, hchk, quiet_nsym, quiet_chk]
    rfl
  · obtain ⟨hnsym, hchk⟩ := hemits.count (Bool.eq_false_iff.2 herr)
    rw [hnsym, hchk, quiet_nsym, quiet_chk]
    simp

end Sys2Proof.Machine
end

section
/-! SUPPORT. What an ENCODE counts on any text (R194): each symbol accepted has its 11 modules stored after the leading
quiet zone, as long as the buffer is not full. -/

namespace Sys2Proof.Machine

variable {o : BitOrder} {s t : State} {base : Nat}

/-- The symbols counted stand after `base` modules, 11 modules each, or the buffer is full. -/
def Counted (base : Nat) (s : State) : Prop := s.cursor = base + 11 * s.nsym ∨ 8 * s.cap ≤ s.cursor

theorem Counted.writeAll (h : Counted base s) (o : BitOrder) (ms : List Module) :
    Counted (base + ms.length) (writeAll o ms s) := by
  unfold Counted at h ⊢
  rw [writeAll_nsym, writeAll_cap, writeAll_cursor, State.cursorAfter]
  omega

theorem Counted.appendSymbol (h : Counted base s) (o : BitOrder) {c : Nat} (hc : c ≤ 105) :
    Counted base (appendSymbol o c s) := by
  rcases appendSymbol_cases o c s with ⟨_, he⟩ | ⟨_, _, he⟩ <;> rw [he]
  · exact h
  · have hw := h.writeAll o (symModules c)
    rw [symModules_length hc] at hw
    unfold Counted at hw ⊢
    rw [State.countSymbol_cursor, State.countSymbol_nsym, State.countSymbol_cap]
    omega

/-- The same of STOP, when ERR is set after it: the symbol was refused, or the buffer is full. -/
theorem Counted.appendSymbol_err (h : Counted base s) {c : Nat} (he : (Machine.appendSymbol o c s).err = true) :
    Counted base (Machine.appendSymbol o c s) := by
  rcases appendSymbol_cases o c s with ⟨_, heq⟩ | ⟨herr, _, heq⟩ <;> rw [heq] at he ⊢
  · exact h
  · exact .inr (OverflowOnly.writeAll _ (overflowOnly_of_err herr) he)

theorem Counted.changeCode (h : Counted base s) (o : BitOrder) (cs : CodeSet) : Counted base (changeCode o cs s) := by
  rcases changeCode_cases o cs s with ⟨_, he⟩ | ⟨_, _, he⟩ | ⟨_, _, c, hc, he⟩ <;> rw [he]
  · exact h
  · exact h
  · exact h.appendSymbol o (transitionSym_range hc).2

theorem Counted.byteStep (h : Counted base s) (o : BitOrder) (fix : Fix) (len : Nat) :
    Counted base (byteStep o fix len s) := by
  rcases byteStep_cases o fix len s with ⟨_, he⟩ | ⟨_, hcp, he⟩ | ⟨hu, _, he⟩ <;> rw [he]
  · exact h
  · obtain ⟨_, h0, h1, _⟩ := compactAt_digits hcp
    exact (h.changeCode o _).appendSymbol o (Nat.le_trans (pairSym_le h0 h1) (by decide))
  · exact (h.changeCode o _).appendSymbol o (Nat.le_trans (charSym_le hu) (by decide))

theorem Counted.append (h : Counted base s) (o : BitOrder) (fix : Fix) (len : Nat) :
    Counted base (append o fix len s) :=
  appendLoop_induct (R := fun s t => Counted base s → Counted base t) (fun _ => id) (fun _ _ _ h1 h2 h => h2 (h1 h))
    o fix len (fun _ _ h => h.byteStep o fix len) len (s.setPos 0) h

theorem Counted.finalize_err (h : Counted base s) (he : (finalize o s).err = true) : Counted base (finalize o s) := by
  by_cases hc : s.code = .stop
  · rwa [finalize_stop o hc]
  · have hstart : Counted base (ensureStarted o s) := by
      unfold ensureStarted
      split_ifs
      · exact h.changeCode o .b
      · exact h
    have hcheck : Counted base (appendCheck o (ensureStarted o s)) :=
      hstart.appendSymbol o (Nat.le_of_lt (Nat.lt_trans (Fin.isLt _) (by decide)))
    rw [finalize_running o hc] at he ⊢
    exact hcheck.appendSymbol_err he

theorem Counted.writeAll_err (h : s.err = true → Counted base s) {ms : List Module}
    (he : (Machine.writeAll o ms s).err = true) : Counted (base + ms.length) (Machine.writeAll o ms s) := by
  by_cases herr : s.err = true
  · exact (h herr).writeAll o ms
  · exact .inr (OverflowOnly.writeAll _ (overflowOnly_of_err (Bool.eq_false_iff.2 herr)) he)

/-- An ENCODE that errs has both quiet zones and 11 modules for each symbol it counts, or a full buffer (R194). -/
theorem encodeRun_counted {fix : Fix} {qz len : Nat} (he : (encodeRun o fix qz len s).err = true) :
    Counted (qz + qz) (encodeRun o fix qz len s) := by
  have hquiet : Counted (0 + (List.replicate qz light).length) (quiet o qz s.runReset) :=
    Counted.writeAll (s := s.runReset) (.inl rfl) o _
  rw [List.length_replicate, Nat.zero_add] at hquiet
  have hend := Counted.writeAll_err (ms := List.replicate qz light)
    (fun hfinal => (hquiet.append o fix len).finalize_err hfinal) he
  rwa [List.length_replicate] at hend

end Sys2Proof.Machine
end

section
/-! SUPPORT. The statements about ENCODE: what it leaves with room and without, and the worked examples (R192 to
R200). -/

namespace Sys2Proof

open Machine

/-- Settles O38: the run's extension bounds CURSOR, and `Finalize` ends in STOP. -/
theorem encodeAlwaysEndsInStop : Obligations.EncodeAlwaysEndsInStop := by
  intro fix qz len s
  have hext := Extends.encodeRun Config.bitOrder fix qz.toNat len.toNat s
  refine ⟨_, rfl, encodeRun_code _ _ _ _ s, rfl, hext.hostKept, encodeRun_txtpos _ _ _ _ s, ?_⟩
  exact (encodeRun_cursor_le _ _ _ _ s).trans_eq (congrArg _ (encodeRun_cap _ _ _ _ s).symm)

/-- Settles O39: with room no module of the run is dropped. -/
theorem encodeWritesBarcode : Obligations.EncodeWritesBarcode := by
  intro fix qz len s henc hw hroom
  have herr : (encodeRun Config.bitOrder fix qz.toNat len.toNat s).err = false :=
    Bool.eq_false_iff.2 (mt (encodeRun_err_iff henc).1 (Nat.not_lt_of_le hroom))
  have hcursor := encodeRun_cursor_of_err_eq_false herr
  have hnsym := encodeRun_nsym herr
  have hchk := encodeRun_chk (o := Config.bitOrder) (fix := fix) (qz := qz.toNat) henc
  rw [hnsym, List.take_length] at hchk
  exact ⟨_, rfl, herr, encodeRun_code _ _ _ _ s, hcursor, (runModules_length fix _ henc).trans hcursor.symm,
    encodeRun_stored henc hw, hnsym, hchk, exec_bufKept hw (i := .encode fix qz len) rfl, rfl⟩

/-- Settles O40: without room CURSOR stops at the end of the buffer, below which the modules of the run stand. -/
theorem encodeOverflowWritesPrefix : Obligations.EncodeOverflowWritesPrefix := by
  intro fix qz len s henc hw hover
  have herr : (encodeRun Config.bitOrder fix qz.toNat len.toNat s).err = true := (encodeRun_err_iff henc).2 hover
  have hcursor := encodeRun_cursor_of_err henc herr
  have hstored := encodeRun_stored (fix := fix) (qz := qz.toNat) henc hw
  rw [hcursor] at hstored
  refine ⟨_, rfl, herr, encodeRun_code _ _ _ _ s, hcursor, ?_, hstored, encodeRun_nsym_eq_ite henc,
    encodeRun_chk henc, fun _ => exec_buf_beyond (i := .encode fix qz len) rfl⟩
  rw [respondCursor, hcursor, State.respond_response]

/-- Settles O42: without an error the run fits whole; with one the symbols counted are stored, or the buffer is full,
as it is whenever the text was encodable. -/
theorem encodeModuleCount : Obligations.EncodeModuleCount := by
  intro fix qz len s t hexec
  obtain rfl := Host.Outcome.next.inj hexec
  simp only [respondCursor, State.respond_err, State.respond_cursor, State.respond_nsym]
  refine ⟨fun he => ?_, fun he hlt => ?_, fun he henc => encodeRun_cursor_of_err henc he⟩
  · rw [encodeRun_cursor_of_err_eq_false he, encodeRun_nsym he, modulesFor]
  · rcases encodeRun_counted he with hcount | hfull
    · omega
    · exact absurd (encodeRun_cap _ _ _ _ s ▸ hfull) (Nat.not_le_of_lt hlt)

/-- Settles O43: without an error every module of the run is stored, and its ends are known. -/
theorem quietZonesAtBothEnds : Obligations.QuietZonesAtBothEnds := by
  intro fix qz len s t hw hexec he
  obtain rfl := Host.Outcome.next.inj hexec
  simp only [respondCursor, State.respond_err, State.respond_cursor, State.respond_buf] at he ⊢
  have henc := encodable_of_encodeRun he
  have hlength := (runModules_length fix qz.toNat henc).trans (encodeRun_cursor_of_err_eq_false he).symm
  rw [← hlength]
  exact ⟨fun _ hj => encodeRun_readModule hw he (runModules_leading fix _ hj),
    fun _ hlo hj => encodeRun_readModule hw he (runModules_trailing fix _ hlo hj),
    encodeRun_readModule hw he (runModules_first_dark fix _ henc),
    encodeRun_readModule hw he (runModules_last_dark fix _ henc)⟩

/-- Settles O46: a run has at most `2 * N + 3` symbols. -/
theorem safeCapacityNeverOverflows : Obligations.SafeCapacityNeverOverflows := by
  intro fix qz len s t henc hcap hexec
  obtain rfl := Host.Outcome.next.inj hexec
  have hlen := runSymbols_length_le fix (s.text len.toNat)
  rw [State.text_length] at hlen
  refine Bool.eq_false_iff.2 (mt (encodeRun_err_iff henc).1 ?_)
  unfold bytesFor modulesFor at *
  omega

/-- Settles O44: the symbols by evaluation, and the run of each as an ENCODE with room. -/
theorem workedExamples : Obligations.WorkedExamples := by
  refine ⟨by decide, by decide, ?_, ?_⟩
  · obtain ⟨t, hexec, herr, _, hcursor, _, _, hnsym, _, _, hresponse⟩ :=
      encodeWritesBarcode .auto 0 0 { State.reset with cap := 8 } (by unfold encodable; decide) rfl (by decide)
    rw [hcursor] at hresponse
    exact ⟨t, hexec, hcursor, hnsym, herr, hresponse⟩
  · obtain ⟨t, hexec, herr, _, hcursor, _, _, hnsym, _, _, hresponse⟩ :=
      encodeWritesBarcode .auto 0 1 { State.reset with cap := 8, txt := [(0, 0x41)] } (by unfold encodable; decide)
        rfl (by decide)
    rw [hcursor] at hresponse
    exact ⟨t, hexec, hcursor, hnsym, herr, hresponse⟩

end Sys2Proof
end

section
/-! SUPPORT. No command aborts (R210). -/

namespace Sys2Proof

open Machine

/-- Settles O49: every command ends by responding from the state its run reached. -/
theorem commandsNeverAbort : Obligations.CommandsNeverAbort := by
  intro i s
  obtain ⟨code, v, u, hexec, _⟩ := exec_extends i s
  exact ⟨u.respond code v, _, hexec, u.respond_response code v⟩

end Sys2Proof
end

section
/-! SUPPORT. Hardware reset and the time before an INIT (R34, R240): a buffer of capacity 0 is full from the start, so
CURSOR never leaves the place where the run starts, and a command that does not move CURSOR has written no byte. -/

namespace Sys2Proof.Machine

variable {s t : State}

/-- With CAP 0 no command but INIT moves CURSOR from where its run starts (R54, R130). -/
theorem exec_cursor_of_cap_eq_zero {i : Instr} (hi : ∀ cap, i ≠ .init cap) (hcap : s.cap = 0)
    (he : exec i s = .next t) : t.cursor = (runStart i s).cursor := by
  obtain ⟨code, v, u, rfl, hext, _⟩ := exec_next_extends he
  have hfull : 8 * (runStart i s).cap ≤ (runStart i s).cursor := by rw [runStart_cap hi, hcap]; exact Nat.zero_le _
  exact hext.cursor_of_full hfull

theorem runStart_cursor_of_eq_zero (i : Instr) (h : s.cursor = 0) : (runStart i s).cursor = 0 := by
  cases i with
  | init _ | encode _ _ _ => rfl
  | _ => exact h

/-- An ENCODE that ends at CURSOR 0 has stored nothing: BUF is the same list of cells, canonical or not (R192). As for
the commands of a run, the run is its own twin. -/
theorem exec_encode_buf_of_cursor_eq_zero {fix : Fix} {qz : BitVec 8} {len : BitVec 16}
    (he : exec (.encode fix qz len) s = .next t) (hc : t.cursor = 0) : t.buf = s.buf := by
  obtain rfl := Host.Outcome.next.inj he
  have h : Twin (UnmovedHolds 0 s.buf) s.txt s.runReset s.runReset := ⟨s.buf, rfl, Nat.le_refl _, fun _ => rfl⟩
  obtain ⟨_, _, _, hbuf⟩ :=
    h.encodeRun (keptByStore_unmovedHolds Config.bitOrder 0 s.buf) fix qz.toNat (len := len.toNat) fun _ _ => rfl
  exact hbuf hc

/-- The commands that may precede an INIT store nothing: CAP is 0 until one has run (R240). -/
theorem exec_stores_nothing_of_cap_eq_zero {i : Instr} (hi : ∀ cap, i ≠ .init cap) (hcap : s.cap = 0)
    (hcursor : s.cursor = 0) (he : exec i s = .next t) : t.buf = s.buf ∧ t.cursor = 0 := by
  have hc : t.cursor = 0 := (exec_cursor_of_cap_eq_zero hi hcap he).trans (runStart_cursor_of_eq_zero i hcursor)
  refine ⟨?_, hc⟩
  cases i with
  | init cap => exact absurd rfl (hi cap)
  | encode fix qz len => exact exec_encode_buf_of_cursor_eq_zero he hc
  | _ => exact exec_buf_of_cursor_eq rfl he (hc.trans hcursor.symm)

end Sys2Proof.Machine

namespace Sys2Proof

open Machine

/-- Settles O9: the reset move takes itself off the agenda, and before an INIT the buffer has no room. -/
theorem hardwareReset : Obligations.HardwareReset :=
  ⟨⟨rfl, rfl, rfl, rfl, rfl, rfl, rfl⟩, fun _ _ h => step_of_agenda_cons h, fun _ => step_of_agenda_nil,
    fun _ _ _ => exec_stores_nothing_of_cap_eq_zero⟩

end Sys2Proof
end

section
/-! SUPPORT. The decode vectors of the spec (R83, R91, R137). -/

namespace Sys2Proof

/-- Settles O5: each of the twelve words is the number of its command, which is well formed. -/
theorem specWordsDecode : Obligations.SpecWordsDecode := by
  unfold Obligations.SpecWordsDecode
  simp only [decode_ok_iff_toNat]
  decide

end Sys2Proof
end
